-- ==== Sys2Proof/Word.lean ====
section
/-! DEFINITION. The bit-vector types of the block (spec/00_scope.md R5, R7). -/

namespace Sys2Proof

/-- A byte of BUF. -/
abbrev Byte := BitVec 8

/-- A command word or a response word: `CMD_BITS` = 32 (R5, R60, R75). -/
abbrev Word := BitVec 32

/-- The operand field IMM[23:0] of a command word (R60). -/
abbrev Imm := BitVec 24

/-- RESULT and the data of a response: `RESULT_BITS` = 24 (R5, R29). -/
abbrev Data := BitVec 24

end Sys2Proof
end

