-- ==== Sys2Proof/Syntax.lean ====
section
/-! DEFINITION. The commands of the block, one constructor per row of spec/opcode_table.json (spec/30_encoding.md R62, R71),
and the reasons a word is no command (R72, R166). -/

namespace Sys2Proof

/-- A command with its operands, each at the width of its field (R62 to R68). -/
inductive Instr where
  /-- NOP (R130). -/
  | nop
  /-- CFG: format C, DEPTH = IMM[4:0], RND = IMM[6:5] (R63, R131). -/
  | cfg (depth : BitVec 5) (rnd : BitVec 2)
  /-- QUANT: format S (R64, R109). -/
  | quant (sample : BitVec 16)
  /-- DEQUANT: format K (R65, R110). -/
  | dequant (code : BitVec 24)
  /-- PACK: format K (R65, R80). -/
  | pack (code : BitVec 24)
  /-- UNPACK (R81). -/
  | unpack
  /-- QPACK: format S (R64, R111). -/
  | qpack (sample : BitVec 16)
  /-- UNPACKDQ (R112). -/
  | unpackdq
  /-- PCLR (R132). -/
  | pclr
  /-- RCLR (R133). -/
  | rclr
  /-- SETLEN: format L (R66, R134). -/
  | setlen (value : BitVec 17)
  /-- WRBYTE: format W (R67, R135). -/
  | wrbyte (addr : BitVec 16) (data : BitVec 8)
  /-- RDBYTE: format A (R67, R136). -/
  | rdbyte (addr : BitVec 16)
  /-- RDREG: format R, REG = IMM[3:0] (R68, R137). -/
  | rdreg (reg : BitVec 4)
  /-- ERRCLR (R138). -/
  | errclr
  deriving DecidableEq, Repr

/-- Why a word is not legal (R72, R166): the decoder's named rejections. The block reports all of them as IllegalCommand. -/
inductive Illegal where
  /-- OP = 0xF (R72 item 1). -/
  | reservedOpcode
  /-- RSV = w[27:24] ≠ 0 (R72 item 2). -/
  | reservedField
  /-- An IMM bit that the format reserves is set (R72 item 3). -/
  | reservedImm
  /-- CFG with IMM[6] = 1, that is RND ∈ {2, 3} (R72 item 4). -/
  | reservedRounding
  /-- RDREG with IMM[3] = 1, that is REG ∈ 8–15 (R72 item 5). -/
  | reservedRegister
  deriving DecidableEq, Repr

/-- One row of the opcode table: its MATCH and MASK constants (R72). -/
structure OpcodeRow where
  base : Word
  mask : Word
  deriving DecidableEq, Repr

/-- The rounding mode CFG.RND selects (R21, R23). -/
inductive Rounding where
  /-- RND = 0. -/
  | floor
  /-- RND = 1. -/
  | nearest
  deriving DecidableEq, Repr, Inhabited

/-- Why a line of assembler text gives no word (R76, R77). -/
inductive AsmError where
  /-- The mnemonic is neither one of R71 nor a pseudo-command of R77. -/
  | unknownMnemonic
  /-- The line has another number of operands than its mnemonic takes. -/
  | wrongOperandCount
  /-- An operand is neither a number nor a name that its place allows. -/
  | malformedOperand
  /-- An operand is outside its range. -/
  | outOfRange
  deriving DecidableEq, Repr

/-- A number as the assembler text writes it (R76): the form matters for a SAMPLE. -/
inductive AsmNumber where
  /-- Decimal digits. -/
  | decimal (n : Nat)
  /-- A minus sign, then decimal digits. -/
  | negative (n : Nat)
  /-- `0x`, then hexadecimal digits. -/
  | hex (n : Nat)
  deriving DecidableEq, Repr

end Sys2Proof
end

