-- ==== Sys2Proof/WellFormed.lean ====
section
/-! DEFINITION. Which terms of `Instr` are commands of the block: the two value checks of spec/30_encoding.md R72 that the
widths of the fields do not make. -/

namespace Sys2Proof

/-- R72 item 4: IMM[6] = 0, so RND ∈ {0, 1}. -/
def roundingLegal (rnd : BitVec 2) : Bool := rnd.toNat < 2

/-- R72 item 5: IMM[3] = 0, so REG ∈ 0–7. -/
def registerLegal (reg : BitVec 4) : Bool := reg.toNat < 8

/-- A term that some legal word encodes. -/
def Instr.wf : Instr → Bool
  | .cfg _ rnd => roundingLegal rnd
  | .rdreg reg => registerLegal reg
  | .nop => true
  | .quant _ => true
  | .dequant _ => true
  | .pack _ => true
  | .unpack => true
  | .qpack _ => true
  | .unpackdq => true
  | .pclr => true
  | .rclr => true
  | .setlen _ => true
  | .wrbyte _ _ => true
  | .rdbyte _ => true
  | .errclr => true

end Sys2Proof
end

