-- ==== Sys2Proof/Decode.lean ====
section
/-! DEFINITION. Decoding and encoding of command words (spec/30_encoding.md R60 to R74), and the opcode table's masks (R72). -/

namespace Sys2Proof

/-! ### The fields of a word (R60) -/

/-- OP = w[31:28]. -/
def opField (w : Word) : BitVec 4 := w.extractLsb' 28 4

/-- RSV = w[27:24]. -/
def rsvField (w : Word) : BitVec 4 := w.extractLsb' 24 4

/-- IMM = w[23:0]. -/
def immField (w : Word) : Imm := w.extractLsb' 0 24

/-! ### The formats (R62): reserved bits checked, operands assembled (R63 to R68) -/

/-- Format N: no operand, IMM = 0. -/
def formatN (i : Instr) (imm : Imm) : Except Illegal Instr :=
  if imm = 0#24 then .ok i else .error .reservedImm

/-- Format C: DEPTH = IMM[4:0], RND = IMM[6:5] with IMM[6] = 0, IMM[23:7] = 0 (R63). -/
def formatC (f : BitVec 5 → BitVec 2 → Instr) (imm : Imm) : Except Illegal Instr :=
  if imm.extractLsb' 7 17 ≠ 0#17 then .error .reservedImm
  else if imm.extractLsb' 6 1 ≠ 0#1 then .error .reservedRounding
  else .ok (f (imm.extractLsb' 0 5) (imm.extractLsb' 5 2))

/-- Format S: SAMPLE = IMM[15:0], IMM[23:16] = 0 (R64). -/
def formatS (f : BitVec 16 → Instr) (imm : Imm) : Except Illegal Instr :=
  if imm.extractLsb' 16 8 ≠ 0#8 then .error .reservedImm else .ok (f (imm.extractLsb' 0 16))

/-- Format K: CODE = IMM[23:0] (R65). -/
def formatK (f : BitVec 24 → Instr) (imm : Imm) : Except Illegal Instr := .ok (f imm)

/-- Format L: VALUE = IMM[16:0], IMM[23:17] = 0 (R66). -/
def formatL (f : BitVec 17 → Instr) (imm : Imm) : Except Illegal Instr :=
  if imm.extractLsb' 17 7 ≠ 0#7 then .error .reservedImm else .ok (f (imm.extractLsb' 0 17))

/-- Format W: ADDR = IMM[23:8], DATA = IMM[7:0] (R67). -/
def formatW (f : BitVec 16 → BitVec 8 → Instr) (imm : Imm) : Except Illegal Instr :=
  .ok (f (imm.extractLsb' 8 16) (imm.extractLsb' 0 8))

/-- Format A: ADDR = IMM[15:0], IMM[23:16] = 0 (R67). -/
def formatA (f : BitVec 16 → Instr) (imm : Imm) : Except Illegal Instr :=
  if imm.extractLsb' 16 8 ≠ 0#8 then .error .reservedImm else .ok (f (imm.extractLsb' 0 16))

/-- Format R: REG = IMM[3:0] with IMM[3] = 0, IMM[23:4] = 0 (R68). -/
def formatR (f : BitVec 4 → Instr) (imm : Imm) : Except Illegal Instr :=
  if imm.extractLsb' 4 20 ≠ 0#20 then .error .reservedImm
  else if imm.extractLsb' 3 1 ≠ 0#1 then .error .reservedRegister
  else .ok (f (imm.extractLsb' 0 4))

/-- The opcode map (R71): which command and format an opcode has. -/
def decodeOp (op : Nat) (imm : Imm) : Except Illegal Instr :=
  match op with
  | 0x0 => formatN .nop imm
  | 0x1 => formatC .cfg imm
  | 0x2 => formatS .quant imm
  | 0x3 => formatK .dequant imm
  | 0x4 => formatK .pack imm
  | 0x5 => formatN .unpack imm
  | 0x6 => formatS .qpack imm
  | 0x7 => formatN .unpackdq imm
  | 0x8 => formatN .pclr imm
  | 0x9 => formatN .rclr imm
  | 0xA => formatL .setlen imm
  | 0xB => formatW .wrbyte imm
  | 0xC => formatA .rdbyte imm
  | 0xD => formatR .rdreg imm
  | 0xE => formatN .errclr imm
  | _ => .error .reservedOpcode

/-- R72: the command a word is, or why it is none. It looks at the word alone (R74). -/
def decode (w : Word) : Except Illegal Instr :=
  if opField w = 0xF#4 then .error .reservedOpcode
  else if rsvField w ≠ 0#4 then .error .reservedField
  else decodeOp (opField w).toNat (immField w)

/-! ### The encoder -/

/-- The word OP, RSV = 0, IMM (R60). -/
def wordOf (op : BitVec 4) (imm : Imm) : Word := op ++ 0#4 ++ imm

/-- The command's word, its operands placed as R62 places them. -/
def encode : Instr → Word
  | .nop => wordOf 0x0#4 0#24
  | .cfg depth rnd => wordOf 0x1#4 (0#17 ++ rnd ++ depth)
  | .quant sample => wordOf 0x2#4 (0#8 ++ sample)
  | .dequant code => wordOf 0x3#4 code
  | .pack code => wordOf 0x4#4 code
  | .unpack => wordOf 0x5#4 0#24
  | .qpack sample => wordOf 0x6#4 (0#8 ++ sample)
  | .unpackdq => wordOf 0x7#4 0#24
  | .pclr => wordOf 0x8#4 0#24
  | .rclr => wordOf 0x9#4 0#24
  | .setlen value => wordOf 0xA#4 (0#7 ++ value)
  | .wrbyte addr data => wordOf 0xB#4 (addr ++ data)
  | .rdbyte addr => wordOf 0xC#4 (0#8 ++ addr)
  | .rdreg reg => wordOf 0xD#4 (0#20 ++ reg)
  | .errclr => wordOf 0xE#4 0#24

/-! ### The constants of R72 -/

/-- MATCH and MASK of the opcodes 0x0 to 0xE, in that order (R72, spec/opcode_table.json). -/
def opcodeTable : List OpcodeRow :=
  [⟨0x00000000#32, 0xFFFFFFFF#32⟩, ⟨0x10000000#32, 0xFFFFFFC0#32⟩, ⟨0x20000000#32, 0xFFFF0000#32⟩,
   ⟨0x30000000#32, 0xFF000000#32⟩, ⟨0x40000000#32, 0xFF000000#32⟩, ⟨0x50000000#32, 0xFFFFFFFF#32⟩,
   ⟨0x60000000#32, 0xFFFF0000#32⟩, ⟨0x70000000#32, 0xFFFFFFFF#32⟩, ⟨0x80000000#32, 0xFFFFFFFF#32⟩,
   ⟨0x90000000#32, 0xFFFFFFFF#32⟩, ⟨0xA0000000#32, 0xFFFE0000#32⟩, ⟨0xB0000000#32, 0xFF000000#32⟩,
   ⟨0xC0000000#32, 0xFFFF0000#32⟩, ⟨0xD0000000#32, 0xFFFFFFF8#32⟩, ⟨0xE0000000#32, 0xFFFFFFFF#32⟩]

/-- The row of an opcode; 0xF has none. -/
def opcodeRow (op : BitVec 4) : Option OpcodeRow := opcodeTable[op.toNat]?

/-- The host's numbering of an instruction's bits is the word's own (R61): a command is one 32-bit value. A row longer than
32 bits is no command. -/
def decodeTableWord (nbits w : Nat) : Option Instr :=
  if nbits ≤ 32 then
    match decode (BitVec.ofNat 32 (w % 2 ^ nbits)) with
    | .ok i => some i
    | .error _ => none
  else none

end Sys2Proof
end

