-- ==== Sys2Proof/Config.lean ====
section
/-! DEFINITION. What the spec leaves open: the bounds and the chosen value of the OPEN parameter BUF_BYTES (spec/00_scope.md
R5), and the free values, which have no body, so that nothing can be proved about what they are. -/

namespace Sys2Proof

/-- The largest BUF_BYTES the spec allows (R5). -/
def Config.maxBufBytes : Nat := 65536

/-- BUF_BYTES of `State.reset`: DESIGN CHOICE, the value the spec's test vectors use (spec/95_test_vectors.md); log 2, unsafe
for a claim about `State.reset` alone. Claims about every state hold for every BUF_BYTES. -/
def Config.resetBufBytes : Nat := 16

/-- FREE VALUE: what the byte of BUF at an address holds after reset number `epoch` until it is written (R182,
spec/93_implementation_defined.md U1): one draw per byte and reset. Log 3, safe. -/
opaque Config.unwrittenByte (epoch addr : Nat) : Byte

/-- FREE VALUE: the rounding mode of a state whose CFG.RND is 2 or 3, which the spec says CFG never holds (R21, U5).
Log 7, safe: no run reaches such a state. -/
opaque Config.reservedRounding (rnd : BitVec 2) : Rounding

end Sys2Proof
end

