-- ==== Sys2Proof/Machine/State.lean ====
section
/-! DEFINITION. The state of the block as plain data (spec/10_state.md R20), the errors a command can end with
(spec/60_exceptions.md R161), and the state after reset (spec/70_reset_and_hazards.md R180). -/

namespace Sys2Proof.Machine

/-- The errors of the block (R161). A command that meets one COMPLETES with its code; none stops the machine (R160). -/
inductive CmdError where
  /-- Code 1: CFG.DEPTH is none the command accepts (R162). -/
  | unsupportedDepth
  /-- Code 2: fewer than N bits of the stream remain at RBIT (R163). -/
  | truncatedStream
  /-- Code 3: the code does not fit in BUF (R164). -/
  | bufferOverflow
  /-- Code 4: a byte address or a length is out of range (R165). -/
  | addressRange
  /-- Code 5: the command word is not legal (R166). -/
  | illegalCommand
  deriving DecidableEq, Repr

/-- What the host does to the block (R188). -/
inductive Interaction where
  /-- It issues one command word. -/
  | issue (w : Word)
  /-- It causes a reset, between two commands (R181). -/
  | reset
  deriving DecidableEq, Repr

/-- The contents of BUF: the bytes written since reset, by address, strictly rising. An address that is not listed has not
been written since reset (log 5). -/
abbrev Memory := List Host.Cell

/-- R20: the registers at their used widths (R32), BUF, and the model's own fields: the parameter BUF_BYTES (log 2), the
number of the last reset (log 4), what the host will do next (log 1) and what it got back (log 6). -/
structure State where
  /-- The parameter BUF_BYTES (R5); no step changes it. -/
  bufBytes : Nat
  /-- CFG[6:0]: DEPTH = [4:0], RND = [6:5] (R21). -/
  cfg : BitVec 7
  /-- STATUS[7:0]: LASTERR = [2:0], the sticky bits = [7:3] (R24). -/
  status : BitVec 8
  /-- WBIT, the write cursor (R26). -/
  wbit : BitVec 20
  /-- RBIT, the read cursor (R27). -/
  rbit : BitVec 20
  /-- LEN, the stream length in bytes (R28). -/
  len : BitVec 17
  /-- RESULT (R29). -/
  result : Data
  /-- BUF (R40). -/
  buf : Memory
  /-- MODEL's own: which reset's draw the unwritten bytes of BUF hold (R182). -/
  epoch : Nat
  /-- MODEL's own: the interactions the host will start next, the first one first (R188). -/
  pending : List Interaction
  /-- MODEL's own: the response words returned so far, the oldest first (R75, R189). -/
  responses : List Word
  deriving DecidableEq, Repr

/-- What stops the machine. No error of the spec does (R160). -/
inductive Fault where
  /-- Raised by UNPACK and UNPACKDQ when the bits to read lie inside the stream length LEN and outside BUF, which takes
  LEN > BUF_BYTES: R28 rules that out and no run reaches it. Safe (log 8). -/
  | outsideBuffer
  deriving DecidableEq, Repr

/-- Why an instruction has no meaning in the model. -/
inductive Refusal where
  /-- An arm of `exec` without a meaning; no arm raises it. Safe. -/
  | notModelled (mnemonic : String)
  deriving DecidableEq, Repr

/-- The outcome of a step of this machine. -/
abbrev Out := Host.Outcome State Fault Refusal

/-- R180: the state after reset number `epoch` of a block with `bufBytes` bytes of BUF: DEPTH = 16, RND = FLOOR, everything
else 0, no byte of BUF written. -/
def State.resetWith (bufBytes epoch : Nat) : State where
  bufBytes := bufBytes
  cfg := 16#7
  status := 0#8
  wbit := 0#20
  rbit := 0#20
  len := 0#17
  result := 0#24
  buf := []
  epoch := epoch
  pending := []
  responses := []

/-- The machine right after reset (R180), with BUF_BYTES = 16 (DESIGN CHOICE, log 2) and nothing issued yet. -/
def State.reset : State := State.resetWith Config.resetBufBytes 0

end Sys2Proof.Machine
end

