-- ==== Sys2Proof/Machine/Flags.lean ====
section
/-! DEFINITION. STATUS: its fields, its update when a command completes (spec/10_state.md R24, R25), the error codes
(spec/60_exceptions.md R161) and the response word (spec/30_encoding.md R75). -/

namespace Sys2Proof.Machine

/-- The codes of R161. -/
def errorCode : CmdError → BitVec 3
  | .unsupportedDepth => 1#3
  | .truncatedStream => 2#3
  | .bufferOverflow => 3#3
  | .addressRange => 4#3
  | .illegalCommand => 5#3

/-- STATUS.LASTERR = STATUS[2:0] (R24). -/
def lastErr (status : BitVec 8) : BitVec 3 := status.extractLsb' 0 3

/-- The sticky bits STATUS[7:3]; the bit of error code e is bit e − 1 of these, bit e + 2 of STATUS (R24, R25). -/
def stickyBits (status : BitVec 8) : BitVec 5 := status.extractLsb' 3 5

/-- `STATUS[2:0] <- code` (R25). -/
def setLastErr (code : BitVec 3) (status : BitVec 8) : BitVec 8 := stickyBits status ++ code

/-- `STATUS[code + 2] <- 1` (R25). -/
def setSticky (code : BitVec 3) (status : BitVec 8) : BitVec 8 := status ||| (1#8 <<< (code.toNat + 2))

/-- `STATUS[7:3] <- 0`, the first part of ERRCLR's completion (R25, R138). -/
def clearSticky (status : BitVec 8) : BitVec 8 := 0#5 ++ lastErr status

/-- R25 `on_complete`, but for ERRCLR's first part: LASTERR takes the code (0 on success), and an error sets its sticky bit. -/
def statusOnComplete (e : Option CmdError) (status : BitVec 8) : BitVec 8 :=
  match e with
  | none => setLastErr 0#3 status
  | some e => setSticky (errorCode e) (setLastErr (errorCode e) status)

/-- R75: the response word {0, ERR, DATA} of a command that left this STATUS and this RESULT. -/
def responseWord (status : BitVec 8) (result : Data) : Word := 0#5 ++ lastErr status ++ result

end Sys2Proof.Machine
end

