-- ==== Sys2Proof/Machine/Arith.lean ====
section
/-! DEFINITION. Exact integer arithmetic: patterns (spec/00_scope.md R8), the value of a run of bits (spec/20_memory.md R43),
quantize and dequantize (spec/41_quantizer.md R100 to R107, R119). -/

namespace Sys2Proof.Machine

/-! ### Patterns (R8) -/

/-- `sext_W`: the two's-complement reading of a W-bit pattern. -/
def sext (W p : Nat) : Int := (BitVec.ofNat W p).toInt

/-- `pat_W`: t mod 2^W, the W-bit two's-complement pattern of t. -/
def pat (W : Nat) (t : Int) : Nat := (t % ((2 ^ W : Nat) : Int)).toNat

/-- `clamp` (R8). -/
def clamp (t lo hi : Int) : Int := min hi (max lo t)

/-- `ceil(a / 8)` for a ≥ 0 (R8). -/
abbrev ceilDiv8 (a : Nat) : Nat := (a + 7) / 8

/-- The number whose bit b is `f b`, for the bits below n: the sum of `f b << b` (R43). -/
def bitsValue (f : Nat → Bool) : Nat → Nat
  | 0 => 0
  | n + 1 => bitsValue f n + (f n).toNat * 2 ^ n

/-! ### Quantize (R100 to R104) -/

/-- The product u × M of R100: u = s + 32768, M = 2^N − 1. -/
def quantProduct (s : Int) (n : Nat) : Int := (s + 32768) * ((2 ^ n - 1 : Nat) : Int)

/-- Q(s, N, rnd) (R100): pass-through at 16 (R103), widening at 24 (R104), else FLOOR (R101) or NEAREST (R102) of
u × M / 65536. `/` rounds toward minus infinity, the divisor being positive. -/
def quantize (s : Int) (n : Nat) (rnd : Rounding) : Nat :=
  if n = 16 then pat 16 s
  else if n = 24 then pat 24 (s * 256)
  else match rnd with
    | .floor => (quantProduct s n / 65536).toNat
    | .nearest => ((quantProduct s n + 32768) / 65536).toNat

/-! ### Dequantize (R105 to R107) -/

/-- The t of R105, before the clamp: round(c × 65536 / M) − 32768. -/
def dequantRaw (c n : Nat) : Int := ((2 * c * 65536 + (2 ^ n - 1)) / (2 * (2 ^ n - 1)) : Nat) - 32768

/-- DQ(c, N): R106 at 16, R107 at 24, else R105. -/
def dequantize (c n : Nat) : Int :=
  if n = 16 then sext 16 c
  else if n = 24 then sext 24 c / 256
  else clamp (dequantRaw c n) (-32768) 32767

end Sys2Proof.Machine
end

