-- ==== Sys2Proof/Machine/Operands.lean ====
section
/-! DEFINITION. Operand forms and register reads: the signed SAMPLE (spec/30_encoding.md R64), the low N bits of CODE (R65),
CFG's fields (spec/10_state.md R21), the depth checks (R22), RDREG's registers (R30, R31, R32). -/

namespace Sys2Proof.Machine

/-- SAMPLE as a LinearSample: sext_16 (R64). -/
def sampleValue (sample : BitVec 16) : Int := sample.toInt

/-- CODE[N−1:0]; the bits above N are ignored (R65). -/
def codeBits (code : BitVec 24) (n : Nat) : Nat := code.toNat % 2 ^ n

/-- RESULT's value for an unsigned number: zext_24 (R29). -/
def zext24 (v : Nat) : Data := BitVec.ofNat 24 v

/-- RESULT's value for a sample: pat_24 (R29). -/
def pat24 (t : Int) : Data := BitVec.ofNat 24 (pat 24 t)

/-- CFG.DEPTH = CFG[4:0] (R21). -/
def depthField (cfg : BitVec 7) : BitVec 5 := cfg.extractLsb' 0 5

/-- CFG.RND = CFG[6:5] (R21). -/
def rndField (cfg : BitVec 7) : BitVec 2 := cfg.extractLsb' 5 2

/-- CFG with `CFG[4:0] <- DEPTH` and `CFG[6:5] <- RND` (R131). -/
def cfgOf (depth : BitVec 5) (rnd : BitVec 2) : BitVec 7 := rnd ++ depth

/-- N = CFG.DEPTH. -/
def State.depth (s : State) : Nat := (depthField s.cfg).toNat

/-- The rounding mode of an RND value: 0 is FLOOR, 1 is NEAREST (R21); CFG never holds 2 or 3 (log 7). -/
def roundingOf (rnd : BitVec 2) : Rounding :=
  if rnd = 0#2 then .floor else if rnd = 1#2 then .nearest else Config.reservedRounding rnd

/-- The rounding mode CFG.RND selects (R23). -/
def State.rounding (s : State) : Rounding := roundingOf (rndField s.cfg)

/-- The depths PACK and UNPACK accept (R22). -/
abbrev packDepth (n : Nat) : Prop := 1 ≤ n ∧ n ≤ 24

/-- The depths QUANT, DEQUANT, QPACK and UNPACKDQ accept (R22, R108). -/
abbrev quantDepth (n : Nat) : Prop := n = 1 ∨ n = 2 ∨ n = 4 ∨ n = 8 ∨ n = 16 ∨ n = 24

/-- BYTEWIDTH = ceil(CFG.DEPTH / 8) (R30). -/
def State.byteWidth (s : State) : Nat := ceilDiv8 s.depth

/-- The register RDREG reads, as zext_24 (R32); numbers 8–15 name none. -/
def readReg (s : State) (reg : BitVec 4) : Option Data :=
  match reg.toNat with
  | 0 => some (s.cfg.setWidth 24)
  | 1 => some (s.status.setWidth 24)
  | 2 => some (s.wbit.setWidth 24)
  | 3 => some (s.rbit.setWidth 24)
  | 4 => some (s.len.setWidth 24)
  | 5 => some s.result
  | 6 => some (zext24 s.byteWidth)
  | 7 => some (zext24 s.bufBytes)
  | _ => none

end Sys2Proof.Machine
end

