-- ==== Sys2Proof/Machine/Ops.lean ====
section
/-! DEFINITION. The named operations over BUF and the registers (spec/20_memory.md R40 to R45), and the two ways a command
completes (spec/10_state.md R25, spec/60_exceptions.md R160): they stand where other machines take an exception, which this
block has not (R170). -/

namespace Sys2Proof.Machine

/-! ### BUF as a list of written bytes -/

/-- The canonical form: addresses strictly rising, so that each is listed once (log 5). -/
abbrev Memory.wf (m : Memory) : Prop := m.Pairwise (fun x y => x.1 < y.1)

/-- The byte written at an address since reset, if one was. -/
def Memory.read? : Memory → Nat → Option Byte
  | [], _ => none
  | (b, u) :: m, a => if b = a then some u else Memory.read? m a

/-- Write one byte, in its place. -/
def Memory.write : Memory → Nat → Byte → Memory
  | [], a, v => [(a, v)]
  | (b, u) :: m, a, v =>
    if a < b then (a, v) :: (b, u) :: m
    else if a = b then (a, v) :: m
    else (b, u) :: Memory.write m a v

/-- `MemRead(a, 1)` (R9): BUF[a], which is a free value where nothing was written since reset (R182). -/
def State.byteAt (s : State) (a : Nat) : Byte := (s.buf.read? a).getD (Config.unwrittenByte s.epoch a)

/-! ### The global-bit view (R41 to R45)

A view gives every global bit its value. BitWrite and ClearPad change a view, and `Memory.storeView` puts the changed bytes
of a view into BUF. -/

/-- bit(g) = (BUF[g >> 3] >> (g mod 8)) mod 2 (R41). -/
def State.bitAt (s : State) (g : Nat) : Bool := (s.byteAt (g / 8)).getLsbD (g % 8)

/-- BitRead(g, n) (R43): the number whose bit b is bit(g + b). -/
def bitRead (view : Nat → Bool) (g n : Nat) : Nat := bitsValue (fun b => view (g + b)) n

/-- BitWrite(g, n, v) (R44): bit(g + b) <- v[b] for b in [0, n), and no other bit. -/
def bitWrite (g n v : Nat) (view : Nat → Bool) : Nat → Bool :=
  fun h => if g ≤ h ∧ h < g + n then v.testBit (h - g) else view h

/-- ClearPad(E) (R45): the bits from E to the end of its byte become 0. -/
def clearPad (e : Nat) (view : Nat → Bool) : Nat → Bool :=
  fun h => if e ≤ h ∧ h < 8 * ceilDiv8 e then false else view h

/-- Byte a of a view (R41). -/
def byteOfView (view : Nat → Bool) (a : Nat) : Byte := BitVec.ofNat 8 (bitRead view (8 * a) 8)

/-- Put `count` bytes of a view into memory, from byte a on. -/
def Memory.storeView (m : Memory) (view : Nat → Bool) (a : Nat) : Nat → Memory
  | 0 => m
  | count + 1 => Memory.storeView (m.write a (byteOfView view a)) view (a + 1) count

/-! ### Register updates -/

/-- `CFG <- v`. -/
def State.withCfg (s : State) (v : BitVec 7) : State := { s with cfg := v }

/-- `STATUS <- v`. -/
def State.withStatus (s : State) (v : BitVec 8) : State := { s with status := v }

/-- `WBIT <- v`. -/
def State.withWbit (s : State) (v : BitVec 20) : State := { s with wbit := v }

/-- `RBIT <- v`. -/
def State.withRbit (s : State) (v : BitVec 20) : State := { s with rbit := v }

/-- `LEN <- v`. -/
def State.withLen (s : State) (v : BitVec 17) : State := { s with len := v }

/-- `RESULT <- v`. -/
def State.withResult (s : State) (v : Data) : State := { s with result := v }

/-- BUF replaced. -/
def State.withBuf (s : State) (m : Memory) : State := { s with buf := m }

/-- The host's next interactions replaced. -/
def State.withPending (s : State) (p : List Interaction) : State := { s with pending := p }

/-- `MemWrite(a, 1, v)` (R9): BUF[a] <- v. -/
def State.storeByte (s : State) (a : Nat) (v : Byte) : State := s.withBuf (s.buf.write a v)

/-- The writes of PACK and QPACK (R80, R111): BitWrite(WBIT, N, v), ClearPad(E), WBIT <- E, LEN <- ceil(E / 8), E = WBIT + N.
The bytes that hold bits from WBIT to 8 × ceil(E / 8) are stored. -/
def State.appendCode (s : State) (n v : Nat) : State :=
  let g := s.wbit.toNat
  let e := g + n
  let view := clearPad e (bitWrite g n v s.bitAt)
  ((s.withBuf (s.buf.storeView view (g / 8) (ceilDiv8 e - g / 8))).withWbit (BitVec.ofNat 20 e)).withLen
    (BitVec.ofNat 17 (ceilDiv8 e))

/-! ### Completion (R25, R75, R160) -/

/-- Every command's last write and its response: STATUS by R25, then the response word of R75. -/
def State.complete (s : State) (e : Option CmdError) : State :=
  { s with
    status := statusOnComplete e s.status
    responses := s.responses ++ [responseWord (statusOnComplete e s.status) s.result] }

/-- `respond(RESULT)` (R9): the command ends successfully. -/
def respond (s : State) : Out := .next (s.complete none)

/-- `raise E` (R9, R10, R167): the command ends with error E, and `s`, the state before it, is changed in STATUS alone. -/
def raise (e : CmdError) (s : State) : Out := .next (s.complete (some e))

/-! ### The read of UNPACK and UNPACKDQ -/

/-- R81, R112: the next N-bit code goes to RESULT through `toResult` and RBIT advances, or TruncatedStream. Bits outside BUF
do not exist (R53): that fault takes LEN > BUF_BYTES, which no run reaches (log 8). -/
def unpackWith (toResult : Nat → Data) (s : State) : Out :=
  if s.rbit.toNat + s.depth > 8 * s.len.toNat then raise .truncatedStream s
  else if s.rbit.toNat + s.depth > 8 * s.bufBytes then .fault .outsideBuffer
  else respond ((s.withRbit (BitVec.ofNat 20 (s.rbit.toNat + s.depth))).withResult
    (toResult (bitRead s.bitAt s.rbit.toNat s.depth)))

/-! ### Reset as an event (R181) -/

/-- The host's reset: R180 holds after it, every byte of BUF is drawn anew (R182), and no response is given. What the host
does next, and the responses it already has, are the host's. -/
def State.takeReset (s : State) : State :=
  { State.resetWith s.bufBytes (s.epoch + 1) with pending := s.pending, responses := s.responses }

end Sys2Proof.Machine
end

