-- ==== Sys2Proof/Machine/BitPacker.lean ====
section
/-! DEFINITION. The BitPacker/BitUnpacker commands (spec/40_bitpacker.md R80, R81). -/

namespace Sys2Proof.Machine

/-- PACK (R80): append the low N bits of CODE to the stream; RESULT is not written. -/
def execPack (code : BitVec 24) (s : State) : Out :=
  if ¬ packDepth s.depth then raise .unsupportedDepth s
  else if s.wbit.toNat + s.depth > 8 * s.bufBytes then raise .bufferOverflow s
  else respond (s.appendCode s.depth (codeBits code s.depth))

/-- UNPACK (R81): the next N-bit code of the stream, zero-extended. -/
def execUnpack (s : State) : Out :=
  if ¬ packDepth s.depth then raise .unsupportedDepth s else unpackWith zext24 s

end Sys2Proof.Machine
end

