-- ==== Sys2Proof/Machine/Control.lean ====
section
/-! DEFINITION. The configuration, buffer-access and status commands (spec/42_control.md R130 to R138). -/

namespace Sys2Proof.Machine

/-- NOP (R130). -/
def execNop (s : State) : Out := respond s

/-- CFG (R131). RND = 2 or 3 is no command: the word of such a term is illegal (R72, R166; log 9). -/
def execCfg (depth : BitVec 5) (rnd : BitVec 2) (s : State) : Out :=
  if roundingLegal rnd then respond (s.withCfg (cfgOf depth rnd)) else raise .illegalCommand s

/-- PCLR (R132). -/
def execPclr (s : State) : Out := respond ((s.withWbit 0#20).withLen 0#17)

/-- RCLR (R133). -/
def execRclr (s : State) : Out := respond (s.withRbit 0#20)

/-- SETLEN (R134). -/
def execSetlen (value : BitVec 17) (s : State) : Out :=
  if value.toNat > s.bufBytes then raise .addressRange s else respond (s.withLen value)

/-- WRBYTE (R135). -/
def execWrbyte (addr : BitVec 16) (data : BitVec 8) (s : State) : Out :=
  if addr.toNat ≥ s.bufBytes then raise .addressRange s else respond (s.storeByte addr.toNat data)

/-- RDBYTE (R136). -/
def execRdbyte (addr : BitVec 16) (s : State) : Out :=
  if addr.toNat ≥ s.bufBytes then raise .addressRange s
  else respond (s.withResult (zext24 (s.byteAt addr.toNat).toNat))

/-- RDREG (R137): it reads STATUS before its own completion. REG 8–15 is no command (R72, R166; log 9). -/
def execRdreg (reg : BitVec 4) (s : State) : Out :=
  match readReg s reg with
  | some v => respond (s.withResult v)
  | none => raise .illegalCommand s

/-- ERRCLR (R138): completion clears STATUS[7:3], then sets LASTERR <- 0 (R25). -/
def execErrclr (s : State) : Out := respond (s.withStatus (clearSticky s.status))

end Sys2Proof.Machine
end

