-- ==== Sys2Proof/Machine/Quantizer.lean ====
section
/-! DEFINITION. The Quantizer/Dequantizer commands (spec/41_quantizer.md R108 to R112). -/

namespace Sys2Proof.Machine

/-- QUANT (R109). -/
def execQuant (sample : BitVec 16) (s : State) : Out :=
  if ¬ quantDepth s.depth then raise .unsupportedDepth s
  else respond (s.withResult (zext24 (quantize (sampleValue sample) s.depth s.rounding)))

/-- DEQUANT (R110): the low N bits of CODE; RND is not read. -/
def execDequant (code : BitVec 24) (s : State) : Out :=
  if ¬ quantDepth s.depth then raise .unsupportedDepth s
  else respond (s.withResult (pat24 (dequantize (codeBits code s.depth) s.depth)))

/-- QPACK (R111): quantize the sample and append its code; RESULT is written only if the code fits. -/
def execQpack (sample : BitVec 16) (s : State) : Out :=
  if ¬ quantDepth s.depth then raise .unsupportedDepth s
  else if s.wbit.toNat + s.depth > 8 * s.bufBytes then raise .bufferOverflow s
  else
    let c := quantize (sampleValue sample) s.depth s.rounding
    respond ((s.appendCode s.depth c).withResult (zext24 c))

/-- UNPACKDQ (R112): the next code of the stream, dequantized. -/
def execUnpackdq (s : State) : Out :=
  if ¬ quantDepth s.depth then raise .unsupportedDepth s
  else unpackWith (fun c => pat24 (dequantize c s.depth)) s

end Sys2Proof.Machine
end

