-- ==== Sys2Proof/Machine/Dispatch.lean ====
section
/-! DEFINITION. The meaning of every command (spec/30_encoding.md R71), one arm per constructor. -/

namespace Sys2Proof.Machine

def exec (i : Instr) (s : State) : Host.Outcome State Fault Refusal :=
  match i with
  | .nop => Sys2Proof.Machine.execNop s
  | .cfg depth rnd => Sys2Proof.Machine.execCfg depth rnd s
  | .quant sample => Sys2Proof.Machine.execQuant sample s
  | .dequant code => Sys2Proof.Machine.execDequant code s
  | .pack code => Sys2Proof.Machine.execPack code s
  | .unpack => Sys2Proof.Machine.execUnpack s
  | .qpack sample => Sys2Proof.Machine.execQpack sample s
  | .unpackdq => Sys2Proof.Machine.execUnpackdq s
  | .pclr => Sys2Proof.Machine.execPclr s
  | .rclr => Sys2Proof.Machine.execRclr s
  | .setlen value => Sys2Proof.Machine.execSetlen value s
  | .wrbyte addr data => Sys2Proof.Machine.execWrbyte addr data s
  | .rdbyte addr => Sys2Proof.Machine.execRdbyte addr s
  | .rdreg reg => Sys2Proof.Machine.execRdreg reg s
  | .errclr => Sys2Proof.Machine.execErrclr s

end Sys2Proof.Machine
end

