-- ==== Sys2Proof/Machine/Issue.lean ====
section
/-! DEFINITION. One interaction of the host with the block (spec/70_reset_and_hazards.md R188). -/

namespace Sys2Proof.Machine

/-- The block executes one command word: legality is checked before anything else, and a word that is not legal ends with
IllegalCommand (spec/30_encoding.md R72, spec/60_exceptions.md R166, R168). -/
def runWord (w : Word) (s : State) : Out :=
  match decode w with
  | .ok i => exec i s
  | .error _ => raise .illegalCommand s

/-- The host's next interaction; with none pending nothing happens, for the block never starts one itself (R188; log 1). -/
def interact (s : State) : Out :=
  match s.pending with
  | [] => .next s
  | .issue w :: rest => runWord w (s.withPending rest)
  | .reset :: rest => .next (s.withPending rest).takeReset

/-- The word the host's numbering gives, put where the next step takes its command from (log 10). -/
def State.issueFirst (s : State) (nbits w : Nat) : State :=
  s.withPending (.issue (BitVec.ofNat 32 (w % 2 ^ nbits)) :: s.pending)

end Sys2Proof.Machine
end

