-- ==== Sys2Proof/Machine/Step.lean ====
section
/-! DEFINITION. One step: the block takes the host's next interaction (spec/70_reset_and_hazards.md R186, R188). -/

namespace Sys2Proof.Machine

/-- One step of the machine. -/
def step (s : State) : Host.Outcome State Fault Refusal := interact s

/-- The state with this command issued first: the next step runs it (log 10). -/
def State.withFetchWord (s : State) (nbits w : Nat) : State := s.issueFirst nbits w

end Sys2Proof.Machine
end

