-- ==== Sys2Proof/Machine/Assembler.lean ====
section
/-! DEFINITION. The assembler (spec/30_encoding.md R76), its pseudo-commands (R77), and the source's contracts as command
sequences (spec/40_bitpacker.md R82, R83). What R76 leaves open about the text is in log 11. -/

namespace Sys2Proof.Machine

/-! ### Pseudo-commands and contracts -/

/-- `SCLR` (R77): PCLR then RCLR. -/
def sclr : List Instr := [.pclr, .rclr]

/-- The WRBYTE commands of LDSTREAM, for the bytes from address a on. -/
def writeBytes (a : Nat) : List Byte → List Instr
  | [] => []
  | b :: bs => .wrbyte (BitVec.ofNat 16 a) b :: writeBytes (a + 1) bs

/-- `LDSTREAM b0, …, b(k−1)` (R77): the bytes from address 0, SETLEN k, RCLR. -/
def ldstream (bytes : List Byte) : List Instr :=
  writeBytes 0 bytes ++ [.setlen (BitVec.ofNat 17 bytes.length), .rclr]

/-- Steps 1 to 3 of `pack(codes, depth)` (R82), with FLOOR. -/
def packSequence (depth : BitVec 5) (codes : List (BitVec 24)) : List Instr :=
  sclr ++ .cfg depth 0#2 :: codes.map .pack

/-- `unpack(stream, depth, count)` (R83), with FLOOR. -/
def unpackSequence (stream : List Byte) (depth : BitVec 5) (count : Nat) : List Instr :=
  ldstream stream ++ .cfg depth 0#2 :: List.replicate count .unpack

/-! ### Numbers and words of a line -/

/-- White space between the parts of a line. -/
def isBlank (c : Char) : Bool := c == ' ' || c == '\t'

/-- A text without the white space around it. -/
def trimText (t : List Char) : List Char := ((t.dropWhile isBlank).reverse.dropWhile isBlank).reverse

/-- The parts of a text between its commas. -/
def splitCommas : List Char → List (List Char)
  | [] => [[]]
  | c :: cs =>
    if c == ',' then [] :: splitCommas cs
    else match splitCommas cs with
      | [] => [[c]]
      | w :: ws => (c :: w) :: ws

/-- The value of a decimal digit. -/
def decDigit (c : Char) : Option Nat :=
  if '0' ≤ c ∧ c ≤ '9' then some (c.toNat - '0'.toNat) else none

/-- The value of a hexadecimal digit, of either case. -/
def hexDigit (c : Char) : Option Nat :=
  if '0' ≤ c ∧ c ≤ '9' then some (c.toNat - '0'.toNat)
  else if 'a' ≤ c ∧ c ≤ 'f' then some (c.toNat - 'a'.toNat + 10)
  else if 'A' ≤ c ∧ c ≤ 'F' then some (c.toNat - 'A'.toNat + 10)
  else none

/-- The number a run of digits spells, after the number `acc`. -/
def readDigits (base : Nat) (digit : Char → Option Nat) (acc : Nat) : List Char → Option Nat
  | [] => some acc
  | c :: cs =>
    match digit c with
    | some d => readDigits base digit (acc * base + d) cs
    | none => none

/-- The number a non-empty run of digits spells. -/
def readNumeral (base : Nat) (digit : Char → Option Nat) : List Char → Option Nat
  | [] => none
  | c :: cs => readDigits base digit 0 (c :: cs)

/-- R76: "Numbers are decimal, or hexadecimal with `0x`"; a minus sign makes a negative decimal. -/
def readNumber : List Char → Option AsmNumber
  | '-' :: ds => (readNumeral 10 decDigit ds).map .negative
  | '0' :: 'x' :: ds => (readNumeral 16 hexDigit ds).map .hex
  | ds => (readNumeral 10 decDigit ds).map .decimal

/-! ### Operands -/

/-- An operand from 0 to `limit`. -/
def natOperand (limit : Nat) (t : List Char) : Except AsmError Nat :=
  match readNumber t with
  | some (.decimal n) => if n ≤ limit then .ok n else .error .outOfRange
  | some (.hex n) => if n ≤ limit then .ok n else .error .outOfRange
  | some (.negative _) => .error .outOfRange
  | none => .error .malformedOperand

/-- A SAMPLE: −32768 to 32767 in decimal, or its 16-bit pattern in hexadecimal; a negative s is pat_16(s) (R76). -/
def sampleOperand (t : List Char) : Except AsmError (BitVec 16) :=
  match readNumber t with
  | some (.decimal n) => if n ≤ 32767 then .ok (BitVec.ofNat 16 n) else .error .outOfRange
  | some (.hex n) => if n ≤ 0xFFFF then .ok (BitVec.ofNat 16 n) else .error .outOfRange
  | some (.negative n) => if n ≤ 32768 then .ok (BitVec.ofInt 16 (-n)) else .error .outOfRange
  | none => .error .malformedOperand

/-- FLOOR or NEAREST, as RND. -/
def roundingOperand (t : List Char) : Except AsmError (BitVec 2) :=
  if t = "FLOOR".toList then .ok 0#2
  else if t = "NEAREST".toList then .ok 1#2
  else .error .malformedOperand

/-- The register names of R32, in the order of their numbers. -/
def registerNames : List String := ["CFG", "STATUS", "WBIT", "RBIT", "LEN", "RESULT", "BYTEWIDTH", "CAP"]

/-- The place of a text in a list of names, counted from `n`. -/
def nameIndex (t : List Char) (n : Nat) : List String → Option Nat
  | [] => none
  | x :: xs => if t = x.toList then some n else nameIndex t (n + 1) xs

/-- A register by its name or its number 0 to 7. -/
def registerOperand (t : List Char) : Except AsmError (BitVec 4) :=
  match nameIndex t 0 registerNames with
  | some n => .ok (BitVec.ofNat 4 n)
  | none => (natOperand 7 t).map (BitVec.ofNat 4)

/-- The operands of LDSTREAM, each a byte. -/
def byteOperands : List (List Char) → Except AsmError (List Byte)
  | [] => .ok []
  | t :: ts =>
    match natOperand 255 t, byteOperands ts with
    | .ok b, .ok bs => .ok (BitVec.ofNat 8 b :: bs)
    | .error e, _ => .error e
    | _, .error e => .error e

/-! ### Lines -/

/-- What a mnemonic does with its operand texts. -/
abbrev AsmRule := List (List Char) → Except AsmError (List Instr)

/-- A mnemonic without operands. -/
def plainRule (is : List Instr) : AsmRule
  | [] => .ok is
  | _ => .error .wrongOperandCount

/-- A mnemonic with one operand. -/
def unaryRule {α : Type} (operand : List Char → Except AsmError α) (f : α → Instr) : AsmRule
  | [t] => (operand t).map fun v => [f v]
  | _ => .error .wrongOperandCount

/-- A mnemonic with two operands. -/
def binaryRule {α β : Type} (first : List Char → Except AsmError α) (second : List Char → Except AsmError β)
    (f : α → β → Instr) : AsmRule
  | [t, u] => (first t).bind fun a => (second u).map fun b => [f a b]
  | _ => .error .wrongOperandCount

/-- LDSTREAM, with at most BUF_BYTES operands (R77). -/
def ldstreamRule (bufBytes : Nat) : AsmRule := fun ts =>
  if ts.length ≤ bufBytes then (byteOperands ts).map ldstream else .error .wrongOperandCount

/-- The mnemonics of R76 and the pseudo-commands of R77. -/
def asmRules (bufBytes : Nat) : List (String × AsmRule) :=
  [("NOP", plainRule [.nop]),
   ("CFG", binaryRule (natOperand 31) roundingOperand fun d r => .cfg (BitVec.ofNat 5 d) r),
   ("QUANT", unaryRule sampleOperand .quant),
   ("DEQUANT", unaryRule (natOperand 0xFFFFFF) fun n => .dequant (BitVec.ofNat 24 n)),
   ("PACK", unaryRule (natOperand 0xFFFFFF) fun n => .pack (BitVec.ofNat 24 n)),
   ("UNPACK", plainRule [.unpack]),
   ("QPACK", unaryRule sampleOperand .qpack),
   ("UNPACKDQ", plainRule [.unpackdq]),
   ("PCLR", plainRule [.pclr]),
   ("RCLR", plainRule [.rclr]),
   ("SETLEN", unaryRule (natOperand 131071) fun n => .setlen (BitVec.ofNat 17 n)),
   ("WRBYTE", binaryRule (natOperand 65535) (natOperand 255) fun a d =>
      .wrbyte (BitVec.ofNat 16 a) (BitVec.ofNat 8 d)),
   ("RDBYTE", unaryRule (natOperand 65535) fun a => .rdbyte (BitVec.ofNat 16 a)),
   ("RDREG", unaryRule registerOperand .rdreg),
   ("ERRCLR", plainRule [.errclr]),
   ("SCLR", plainRule sclr),
   ("LDSTREAM", ldstreamRule bufBytes)]

/-- The rule of a mnemonic; mnemonics are case-insensitive (R76). -/
def findRule (t : List Char) : List (String × AsmRule) → Option AsmRule
  | [] => none
  | (name, rule) :: rest => if t.map Char.toUpper = name.toList then some rule else findRule t rest

/-- The operand texts of a line: what stands between the commas, or none. -/
def operandTexts (rest : List Char) : List (List Char) :=
  if trimText rest = [] then [] else (splitCommas rest).map trimText

/-- The commands a line of assembler text stands for, on a block of `bufBytes` bytes (R76, R77). -/
def assembleLine (bufBytes : Nat) (line : String) : Except AsmError (List Instr) :=
  let t := trimText line.toList
  match findRule (t.takeWhile fun c => ! isBlank c) (asmRules bufBytes) with
  | some rule => rule (operandTexts (t.dropWhile fun c => ! isBlank c))
  | none => .error .unknownMnemonic

/-- The words of a line; an error produces no word (R76). -/
def assembleWords (bufBytes : Nat) (line : String) : Except AsmError (List Word) :=
  (assembleLine bufBytes line).map fun is => is.map encode

end Sys2Proof.Machine
end

