-- ==== Sys2Proof/Machine/Run.lean ====
section
/-! DEFINITION. Runs and their outcome (spec/70_reset_and_hazards.md R189). -/

namespace Sys2Proof.Machine

/-- The interaction is a command, so it has a response (R188). -/
def isCommand : Interaction → Bool
  | .issue _ => true
  | .reset => false

/-- R189: a run ends after its last response, so its last interaction, where it has one, is a command (log 16). -/
def isRun (xs : List Interaction) : Prop := xs.getLast? ≠ some .reset

/-- `n` steps, stopping where one stops. -/
def runSteps : Nat → State → Out
  | 0, s => .next s
  | n + 1, s =>
    match step s with
    | .next t => runSteps n t
    | .fault r => .fault r
    | .refused r => .refused r

/-- R189: where a run starts: the reset state, here of any BUF_BYTES and after any number of earlier resets, with the run's
interactions to come. -/
def State.runStart (bufBytes epoch : Nat) (xs : List Interaction) : State :=
  (State.resetWith bufBytes epoch).withPending xs

/-- The packed stream BUF[0 .. LEN−1] (R40, R189). -/
def State.stream (s : State) : List Byte := (List.range s.len.toNat).map s.byteAt

/-- R189: the two parts of a run's outcome. -/
structure RunOutcome where
  /-- The response words, the first one first. -/
  responses : List Word
  /-- The final state: every register and BUF. -/
  final : State
  deriving DecidableEq, Repr

/-- The packed stream of a run's final state (R189). -/
def RunOutcome.stream (o : RunOutcome) : List Byte := o.final.stream

/-- What a run that ended in this state gave. -/
def State.outcome (s : State) : RunOutcome := ⟨s.responses, s⟩

/-- R189: the outcome of the interactions `xs`, one step each, from the reset state. -/
def runOutcome (bufBytes epoch : Nat) (xs : List Interaction) : Host.Outcome RunOutcome Fault Refusal :=
  match runSteps xs.length (State.runStart bufBytes epoch xs) with
  | .next t => .next t.outcome
  | .fault r => .fault r
  | .refused r => .refused r

end Sys2Proof.Machine
end

