-- ==== Sys2Proof/Safety.lean ====
section
/-! DEFINITION. The terms claims use: the invariant of the block's state, and a sequence of commands. Runs and their outcome
are in Machine/Run.lean. -/

namespace Sys2Proof.Machine

/-! ### The invariant -/

/-- 1 ≤ BUF_BYTES ≤ 65536 (R5). -/
abbrev State.sizeLegal (s : State) : Prop := 1 ≤ s.bufBytes ∧ s.bufBytes ≤ Config.maxBufBytes

/-- WBIT, RBIT ≤ 8 × BUF_BYTES and LEN ≤ BUF_BYTES (R26, R27, R28). -/
abbrev State.cursorsInside (s : State) : Prop :=
  s.wbit.toNat ≤ 8 * s.bufBytes ∧ s.rbit.toNat ≤ 8 * s.bufBytes ∧ s.len.toNat ≤ s.bufBytes

/-- CFG.RND never holds 2 or 3 (R21). -/
abbrev State.cfgLegal (s : State) : Prop := roundingLegal (rndField s.cfg) = true

/-- LASTERR is 0 or a code of R161, and the sticky bit of a nonzero LASTERR is set (R24, R25). -/
abbrev State.statusLegal (s : State) : Prop :=
  (lastErr s.status).toNat ≤ 5 ∧
    (lastErr s.status ≠ 0#3 → s.status.getLsbD ((lastErr s.status).toNat + 2) = true)

/-- BUF is in canonical form and lists no address outside it (R40, R53). -/
abbrev State.bufLegal (s : State) : Prop := s.buf.wf ∧ ∀ c ∈ s.buf, c.1 < s.bufBytes

/-- Every byte that holds a bit below WBIT has been written since reset, so no packing reads a free value (R182). -/
abbrev State.packedWritten (s : State) : Prop := ∀ a < ceilDiv8 s.wbit.toNat, s.buf.read? a ≠ none

/-- What holds of the block's state at reset and after every step. -/
structure State.Inv (s : State) : Prop where
  size : s.sizeLegal
  cursors : s.cursorsInside
  cfg : s.cfgLegal
  status : s.statusLegal
  buf : s.bufLegal
  packed : s.packedWritten

/-! ### Sequences of commands -/

/-- The commands of a list, one after the other, stopping where one stops. -/
def execAll : List Instr → State → Out
  | [], s => .next s
  | i :: is, s =>
    match exec i s with
    | .next t => execAll is t
    | .fault r => .fault r
    | .refused r => .refused r

end Sys2Proof.Machine
end

