-- ==== Sys2Proof/Certificates/Slice0/Obligations.lean ====
section
/-! DEFINITION. The statements about the block, each over the spec's rules. -/

open Sys2Proof Sys2Proof.Machine

namespace Sys2Proof.Claims

/-- A successful completion of a command whose own writes give `u` (spec/10_state.md R25, spec/30_encoding.md R75): LASTERR
is 0, the sticky bits stay, and the response carries ERR = 0 and RESULT. -/
def succeed (u : State) : State :=
  { u with status := stickyBits u.status ++ 0#3, responses := u.responses ++ [0#8 ++ u.result] }

/-- What a command that ends with error `e` leaves of the state `s` before it (R25, R75, spec/60_exceptions.md R167): LASTERR
is the code, the code's sticky bit is set, the response carries the code and the old RESULT, and nothing else changes. -/
def failed (e : CmdError) (s : State) : State :=
  { s with
    status := (stickyBits s.status ||| (1#5 <<< ((errorCode e).toNat - 1))) ++ errorCode e
    responses := s.responses ++ [0#5 ++ errorCode e ++ s.result] }

/-- The command ends with error `e`. -/
def FailsWith (e : CmdError) (i : Instr) (s : State) : Prop := exec i s = .next (failed e s)

/-- The reserved IMM bits of an opcode's format (spec/30_encoding.md R62): set where the format's column holds 0. -/
def reservedImm (op : BitVec 4) : Imm :=
  match op.toNat with
  | 0x1 => 0xFFFFC0#24
  | 0x2 => 0xFF0000#24
  | 0x3 => 0x000000#24
  | 0x4 => 0x000000#24
  | 0x6 => 0xFF0000#24
  | 0xA => 0xFE0000#24
  | 0xB => 0x000000#24
  | 0xC => 0xFF0000#24
  | 0xD => 0xFFFFF0#24
  | _ => 0xFFFFFF#24

/-- The exact real number of R101 before rounding: normalized × (2^depth − 1). -/
def normalizedCode (s : Int) (n : Nat) : ℚ := ((s : ℚ) + 32768) / 65536 * (2 ^ n - 1)

/-- The exact real number of R105 before rounding: normalized × 65536 − 32768. -/
def normalizedSample (c n : Nat) : ℚ := (c : ℚ) / (2 ^ n - 1) * 65536 - 32768

/-- A depth at which the quantizer rounds. -/
abbrev roundingDepth (n : Nat) : Prop := n = 1 ∨ n = 2 ∨ n = 4 ∨ n = 8

/-- A LinearSample. -/
abbrev isSample (s : Int) : Prop := -32768 ≤ s ∧ s ≤ 32767

/-- The code a packing command packs, at depth `n` and rounding `rnd`; other commands pack none. -/
def packedCode (n : Nat) (rnd : Rounding) : Instr → Option Nat
  | .pack code => if packDepth n then some (code.toNat % 2 ^ n) else none
  | .qpack sample => if quantDepth n then some (quantize sample.toInt n rnd) else none
  | _ => none

/-- Bits [0, k × N) of BUF hold the codes in order, N bits each, LSB first, and the padding bits of the last byte are 0: BUF
holds the source's `pack(codes, depth)` (spec/20_memory.md R42, R45). -/
def HoldsPacked (s : State) (n : Nat) (codes : List Nat) : Prop :=
  s.len.toNat = (codes.length * n + 7) / 8 ∧
  (∀ (j : Nat) (h : j < codes.length), ∀ b < n, s.bitAt (j * n + b) = codes[j].testBit b) ∧
  (∀ g, codes.length * n ≤ g → g < 8 * s.len.toNat → s.bitAt g = false)

end Sys2Proof.Claims

open Sys2Proof.Claims

/-! ### Encoding -/

/-- R60 to R72: no operand bit of a command is dropped: its word decodes to the command itself. -/
def Obligations.DecodeOfEncodeGivesTheCommand : Prop :=
  ∀ i : Instr, i.wf = true → decode (encode i) = .ok i

/-- R72, R166: no word decodes to a command with another word, and what decodes is well-formed. -/
def Obligations.EncodeOfDecodeGivesTheWord : Prop :=
  ∀ (w : Word) (i : Instr), decode w = .ok i → encode i = w ∧ i.wf = true

/-- R72: a word is legal if and only if its five conditions hold, if and only if it matches the row of its OP under the row's
mask, and a word that is not legal ends with IllegalCommand and does nothing else, in every state. -/
def Obligations.LegalWordsAreThoseOfTheTable : Prop :=
  ∀ w : Word,
    ((∃ i, decode w = .ok i) ↔
      opField w ≠ 0xF#4 ∧ rsvField w = 0#4 ∧ immField w &&& reservedImm (opField w) = 0#24 ∧
      (opField w = 0x1#4 → w.getLsbD 6 = false) ∧ (opField w = 0xD#4 → w.getLsbD 3 = false)) ∧
    ((∃ i, decode w = .ok i) ↔ ∃ row, opcodeRow (opField w) = some row ∧ w &&& row.mask = row.base) ∧
    ((¬ ∃ i, decode w = .ok i) → ∀ (s : State) (rest : List Interaction), s.pending = .issue w :: rest →
      step s = .next (failed .illegalCommand { s with pending := rest }))

/-- R78: the sample lines assemble to the sample words, these decode to the commands they stand for, and the five illegal
words are refused. -/
def Obligations.SampleWordsDecode : Prop :=
  (assembleWords 16 "CFG 4, FLOOR" = .ok [0x10000004#32] ∧ decode 0x10000004#32 = .ok (.cfg 4#5 0#2)) ∧
  (assembleWords 16 "CFG 4, NEAREST" = .ok [0x10000024#32] ∧ decode 0x10000024#32 = .ok (.cfg 4#5 1#2)) ∧
  (assembleWords 16 "CFG 2, FLOOR" = .ok [0x10000002#32] ∧ decode 0x10000002#32 = .ok (.cfg 2#5 0#2)) ∧
  (assembleWords 16 "QUANT 0" = .ok [0x20000000#32] ∧ decode 0x20000000#32 = .ok (.quant 0#16)) ∧
  (assembleWords 16 "QUANT -1" = .ok [0x2000FFFF#32] ∧ decode 0x2000FFFF#32 = .ok (.quant 0xFFFF#16)) ∧
  (assembleWords 16 "QPACK -32768" = .ok [0x60008000#32] ∧ decode 0x60008000#32 = .ok (.qpack 0x8000#16)) ∧
  (assembleWords 16 "PACK 3" = .ok [0x40000003#32] ∧ decode 0x40000003#32 = .ok (.pack 3#24)) ∧
  (assembleWords 16 "WRBYTE 1, 0x8E" = .ok [0xB000018E#32] ∧ decode 0xB000018E#32 = .ok (.wrbyte 1#16 0x8E#8)) ∧
  (assembleWords 16 "RDREG LEN" = .ok [0xD0000004#32] ∧ decode 0xD0000004#32 = .ok (.rdreg 4#4)) ∧
  (assembleWords 16 "SETLEN 1" = .ok [0xA0000001#32] ∧ decode 0xA0000001#32 = .ok (.setlen 1#17)) ∧
  decode 0xF0000000#32 = .error .reservedOpcode ∧ decode 0x01000000#32 = .error .reservedField ∧
  decode 0x10000040#32 = .error .reservedRounding ∧ decode 0xD0000008#32 = .error .reservedRegister ∧
  decode 0x50000001#32 = .error .reservedImm

/-- R72: no word matches two rows of the opcode table. -/
def Obligations.OpcodeRowsAreDisjoint : Prop :=
  ∀ (w : Word) (j k : Nat) (rj rk : OpcodeRow), opcodeTable[j]? = some rj → opcodeTable[k]? = some rk →
    w &&& rj.mask = rj.base → w &&& rk.mask = rk.base → j = k

/-! ### The host's interactions -/

/-- R188: when the host issues a word that decodes to a command, the step is that command's meaning, in the state without
that interaction. -/
def Obligations.StepRunsTheDecodedCommand : Prop :=
  ∀ (s : State) (w : Word) (i : Instr) (rest : List Interaction), s.pending = .issue w :: rest → decode w = .ok i →
    step s = exec i { s with pending := rest }

/-- R166: a word with OP = 0xF, with RSV ≠ 0, with a reserved IMM bit set, CFG with RND ∈ {2, 3} and RDREG with REG ∈ 8–15
end with IllegalCommand and are never executed as some other command. -/
def Obligations.IllegalWordsEndWithIllegalCommand : Prop :=
  ∀ (s : State) (w : Word) (rest : List Interaction), s.pending = .issue w :: rest →
    (opField w = 0xF#4 ∨ rsvField w ≠ 0#4 ∨ immField w &&& reservedImm (opField w) ≠ 0#24 ∨
      (opField w = 0x1#4 ∧ 2 ≤ (w.extractLsb' 5 2).toNat) ∨ (opField w = 0xD#4 ∧ 8 ≤ (w.extractLsb' 0 4).toNat)) →
    step s = .next (failed .illegalCommand { s with pending := rest })

/-- R180, R181, R182: the host's reset leaves the reset state, draws every byte of BUF anew and gives no response. The number
of the draw is the model's own (log 4), and so is where the host's inputs and outputs are kept (log 1, log 6). -/
def Obligations.HostResetLeavesTheResetState : Prop :=
  ∀ (s : State) (rest : List Interaction), s.pending = .reset :: rest →
    ∃ t, step s = .next t ∧ t.cfg = 16#7 ∧ t.status = 0#8 ∧ t.wbit = 0#20 ∧ t.rbit = 0#20 ∧ t.len = 0#17 ∧
      t.result = 0#24 ∧ (∀ a, t.byteAt a = Config.unwrittenByte (s.epoch + 1) a) ∧ t.bufBytes = s.bufBytes ∧
      t.pending = rest ∧ t.responses = s.responses

/-- R180: the values after reset, of a block of any size. That an unwritten byte of BUF, which R180 calls unspecified, reads as
its draw, and how the draws are numbered, is the model's own (log 3, log 4). -/
def Obligations.ResetStateValues : Prop :=
  ∀ n epoch, n ≤ 65536 → ∀ s, s = State.resetWith n epoch →
    s.depth = 16 ∧ rndField s.cfg = 0#2 ∧ s.rounding = .floor ∧ readReg s 0#4 = some 16#24 ∧
    readReg s 1#4 = some 0#24 ∧ s.wbit = 0#20 ∧ s.rbit = 0#20 ∧ s.len = 0#17 ∧ s.result = 0#24 ∧
    (∀ a, s.byteAt a = Config.unwrittenByte epoch a) ∧ readReg s 6#4 = some 2#24 ∧
    readReg s 7#4 = some (BitVec.ofNat 24 n) ∧ s.bufBytes = n

/-! ### Control commands: what each leaves, and that it leaves everything else alone -/

/-- R130: NOP completes from every state and writes LASTERR <- 0 alone. -/
def Obligations.NopOnlyClearsLasterr : Prop := ∀ s, exec .nop s = .next (succeed s)

/-- R131: CFG writes DEPTH and RND, any DEPTH, and nothing else but its completion; with RND = 2 or 3 it is no command
(R166; log 9). -/
def Obligations.CfgWritesDepthAndRounding : Prop :=
  ∀ (s : State) (depth : BitVec 5) (rnd : BitVec 2),
    (rnd.toNat < 2 → ∃ t, exec (.cfg depth rnd) s = .next t ∧ t = succeed { s with cfg := t.cfg } ∧
      depthField t.cfg = depth ∧ rndField t.cfg = rnd) ∧
    (2 ≤ rnd.toNat → FailsWith .illegalCommand (.cfg depth rnd) s)

/-- R132, R133: PCLR zeroes WBIT and LEN, RCLR zeroes RBIT, from every state; BUF and the other registers stay. -/
def Obligations.PclrAndRclrZeroTheirCursors : Prop :=
  ∀ s, exec .pclr s = .next (succeed { s with wbit := 0#20, len := 0#17 }) ∧
    exec .rclr s = .next (succeed { s with rbit := 0#20 })

/-- R134: SETLEN up to BUF_BYTES writes LEN and nothing else but its completion; above it, it ends with AddressRange. -/
def Obligations.SetlenWritesLen : Prop :=
  ∀ (s : State) (value : BitVec 17),
    (value.toNat ≤ s.bufBytes → exec (.setlen value) s = .next (succeed { s with len := value })) ∧
    (s.bufBytes < value.toNat → FailsWith .addressRange (.setlen value) s)

/-- R135: WRBYTE inside BUF writes that byte and no other, and no register; outside it ends with AddressRange. -/
def Obligations.WrbyteWritesOneByte : Prop :=
  ∀ (s : State) (addr : BitVec 16) (data : BitVec 8),
    (addr.toNat < s.bufBytes → ∃ t, exec (.wrbyte addr data) s = .next t ∧ t = succeed { s with buf := t.buf } ∧
      t.byteAt addr.toNat = data ∧ ∀ a, a ≠ addr.toNat → t.byteAt a = s.byteAt a) ∧
    (s.bufBytes ≤ addr.toNat → FailsWith .addressRange (.wrbyte addr data) s)

/-- R136: RDBYTE inside BUF, below or beyond LEN, gives the byte zero-extended and leaves BUF and the other registers;
outside it ends with AddressRange. -/
def Obligations.RdbyteReadsOneByte : Prop :=
  ∀ (s : State) (addr : BitVec 16),
    (addr.toNat < s.bufBytes →
      exec (.rdbyte addr) s = .next (succeed { s with result := (s.byteAt addr.toNat).setWidth 24 })) ∧
    (s.bufBytes ≤ addr.toNat → FailsWith .addressRange (.rdbyte addr) s)

/-- R32, R137: RDREG gives the register of each number 0 to 7, zero-extended, as it is before the command's own completion;
numbers 8 to 15 are no command (R166; log 9). -/
def Obligations.RdregReadsTheRegisterTable : Prop :=
  ∀ s : State,
    exec (.rdreg 0#4) s = .next (succeed { s with result := s.cfg.setWidth 24 }) ∧
    exec (.rdreg 1#4) s = .next (succeed { s with result := s.status.setWidth 24 }) ∧
    exec (.rdreg 2#4) s = .next (succeed { s with result := s.wbit.setWidth 24 }) ∧
    exec (.rdreg 3#4) s = .next (succeed { s with result := s.rbit.setWidth 24 }) ∧
    exec (.rdreg 4#4) s = .next (succeed { s with result := s.len.setWidth 24 }) ∧
    exec (.rdreg 5#4) s = .next (succeed s) ∧
    exec (.rdreg 6#4) s = .next (succeed { s with result := BitVec.ofNat 24 ((s.depth + 7) / 8) }) ∧
    exec (.rdreg 7#4) s = .next (succeed { s with result := BitVec.ofNat 24 s.bufBytes }) ∧
    ∀ reg : BitVec 4, 8 ≤ reg.toNat → FailsWith .illegalCommand (.rdreg reg) s

/-- R30: what RDREG of BYTEWIDTH gives for each range of DEPTH; the width in bytes holds a code's N bits. -/
def Obligations.BytewidthFollowsDepth : Prop :=
  ∀ s : State, ∃ t, exec (.rdreg 6#4) s = .next t ∧
    (s.depth = 0 → t.result = 0#24) ∧ (1 ≤ s.depth → s.depth ≤ 8 → t.result = 1#24) ∧
    (9 ≤ s.depth → s.depth ≤ 16 → t.result = 2#24) ∧ (17 ≤ s.depth → s.depth ≤ 24 → t.result = 3#24) ∧
    (25 ≤ s.depth → t.result = 4#24) ∧ s.depth ≤ 8 * t.result.toNat

/-- R138: ERRCLR completes from every state with STATUS = 0 and leaves everything else. -/
def Obligations.ErrclrClearsStatus : Prop :=
  ∀ s : State, exec .errclr s =
    .next { s with status := 0#8, responses := s.responses ++ [0#8 ++ s.result] }

/-! ### BitPacker -/

/-- R80, R44, R45: PACK of a code that fits completes; the code's low N bits stand from WBIT on, the rest of its last byte is
0, every other bit of BUF is as before, and WBIT and LEN advance; every other register stays. -/
def Obligations.PackAppendsTheCodeBits : Prop :=
  ∀ (s : State) (code : BitVec 24), s.bufBytes ≤ 65536 → 1 ≤ s.depth → s.depth ≤ 24 →
    s.wbit.toNat + s.depth ≤ 8 * s.bufBytes →
    ∃ t, exec (.pack code) s = .next t ∧ t = succeed { s with buf := t.buf, wbit := t.wbit, len := t.len } ∧
      t.wbit.toNat = s.wbit.toNat + s.depth ∧ t.len.toNat = (s.wbit.toNat + s.depth + 7) / 8 ∧
      ∀ g, t.bitAt g =
        if s.wbit.toNat ≤ g ∧ g < s.wbit.toNat + s.depth then code.getLsbD (g - s.wbit.toNat)
        else if s.wbit.toNat + s.depth ≤ g ∧ g < 8 * ((s.wbit.toNat + s.depth + 7) / 8) then false
        else s.bitAt g

/-- R81: UNPACK inside the stream completes; RESULT is the N bits from RBIT on, zero-extended, RBIT advances by N, and BUF
and every other register stay. -/
def Obligations.UnpackReadsTheNextCode : Prop :=
  ∀ s : State, s.bufBytes ≤ 65536 → s.len.toNat ≤ s.bufBytes → 1 ≤ s.depth → s.depth ≤ 24 →
    s.rbit.toNat + s.depth ≤ 8 * s.len.toNat →
    ∃ t, exec .unpack s = .next t ∧ t = succeed { s with rbit := t.rbit, result := t.result } ∧
      t.rbit.toNat = s.rbit.toNat + s.depth ∧
      ∀ b, t.result.getLsbD b = (decide (b < s.depth) && s.bitAt (s.rbit.toNat + b))

/-- R43: BitRead is the sum of its bits, each at its own weight. -/
def Obligations.BitReadIsTheSumOfItsBits : Prop :=
  ∀ (s : State) (g n : Nat), 1 ≤ n → n ≤ 24 → g + n ≤ 8 * s.bufBytes →
    bitRead s.bitAt g n = ∑ b ∈ Finset.range n, (s.bitAt (g + b)).toNat <<< b ∧
    bitRead s.bitAt g n < 2 ^ n ∧ ∀ b < n, (bitRead s.bitAt g n).testBit b = s.bitAt (g + b)

/-- R45: after a successful PACK or QPACK the bits from the new WBIT to the end of its byte are 0. -/
def Obligations.PaddingBitsAreZero : Prop :=
  ∀ (s t : State) (i : Instr), s.bufBytes ≤ 65536 → ((∃ code, i = .pack code) ∨ ∃ sample, i = .qpack sample) →
    exec i s = .next t → lastErr t.status = 0#3 →
    ∀ g, t.wbit.toNat ≤ g → g < 8 * ((t.wbit.toNat + 7) / 8) → t.bitAt g = false

/-- R84: packing codes from PCLR and unpacking as many from RCLR at the same depth returns the codes in order, with ERR = 0
in every response. -/
def Obligations.UnpackReturnsThePackedCodes : Prop :=
  ∀ (s : State) (depth : BitVec 5) (codes : List (BitVec 24)), s.bufBytes ≤ 65536 →
    1 ≤ depth.toNat → depth.toNat ≤ 24 → (∀ c ∈ codes, c.toNat < 2 ^ depth.toNat) →
    codes.length * depth.toNat ≤ 8 * s.bufBytes →
    ∃ t u, execAll (packSequence depth codes) s = .next t ∧
      execAll (.rclr :: List.replicate codes.length .unpack) t = .next u ∧
      t.responses = s.responses ++ List.replicate (codes.length + 3) (0#8 ++ s.result) ∧
      u.responses = t.responses ++ (0#8 ++ s.result) :: codes.map (fun c => 0#8 ++ c)

/-- R46: after PCLR and k PACK or QPACK commands at one depth, which all fit and whose depth they accept, LEN is ceil(k × N / 8)
and BUF[0 .. LEN−1] is the source's `pack(codes, depth)`. -/
def Obligations.PackingKeepsTheLengthInvariant : Prop :=
  ∀ (s : State) (cmds : List Instr) (codes : List Nat), s.bufBytes ≤ 65536 →
    cmds.map (packedCode s.depth s.rounding) = codes.map some → codes.length * s.depth ≤ 8 * s.bufBytes →
    ∃ t, execAll (.pclr :: cmds) s = .next t ∧ lastErr t.status = 0#3 ∧
      stickyBits t.status = stickyBits s.status ∧ HoldsPacked t s.depth codes

/-- R85: a stream of k bytes gives exactly floor(8k / N) codes before TruncatedStream; for a stream packed from L codes that
is at least L and at most floor(7 / N) more, and the extra codes read as 0. -/
def Obligations.AvailableCodesOfAStream : Prop :=
  (∀ s : State, s.bufBytes ≤ 65536 → s.len.toNat ≤ s.bufBytes → 1 ≤ s.depth → s.depth ≤ 24 → s.rbit = 0#20 →
    (∀ j ≤ 8 * s.len.toNat / s.depth, ∃ t, execAll (List.replicate j .unpack) s = .next t ∧
      t.rbit.toNat = j * s.depth ∧ stickyBits t.status = stickyBits s.status) ∧
    ∃ t, execAll (List.replicate (8 * s.len.toNat / s.depth) .unpack) s = .next t ∧
      FailsWith .truncatedStream .unpack t) ∧
  (∀ n l : Nat, 1 ≤ n → n ≤ 24 →
    l ≤ 8 * ((l * n + 7) / 8) / n ∧ 8 * ((l * n + 7) / 8) / n ≤ l + 7 / n) ∧
  (∀ (s : State) (codes : List Nat) (j : Nat), s.bufBytes ≤ 65536 → s.len.toNat ≤ s.bufBytes →
    1 ≤ s.depth → s.depth ≤ 24 → HoldsPacked s s.depth codes → codes.length ≤ j →
    s.rbit.toNat = j * s.depth → (j + 1) * s.depth ≤ 8 * s.len.toNat →
    ∃ t, exec .unpack s = .next t ∧ lastErr t.status = 0#3 ∧ t.result = 0#24)

/-- R86: at depth 4, packed from WBIT = 0, code 2j is the low nibble of BUF[j] and code 2j + 1 the high nibble. -/
def Obligations.DepthFourNibbleOrder : Prop :=
  ∀ (s : State) (codes : List (BitVec 24)), s.bufBytes ≤ 65536 → codes.length * 4 ≤ 8 * s.bufBytes →
    ∃ t, execAll (packSequence 4#5 codes) s = .next t ∧
      (∀ (j : Nat) (h : 2 * j < codes.length), (t.byteAt j).extractLsb' 0 4 = codes[2 * j].setWidth 4) ∧
      (∀ (j : Nat) (h : 2 * j + 1 < codes.length), (t.byteAt j).extractLsb' 4 4 = codes[2 * j + 1].setWidth 4)

/-- R48: at a depth that is a multiple of 8 and a WBIT that is one, PACK leaves the code's bytes in little-endian order. -/
def Obligations.WholeBytesAreLittleEndian : Prop :=
  ∀ (s : State) (code : BitVec 24), s.bufBytes ≤ 65536 → s.depth = 8 ∨ s.depth = 16 ∨ s.depth = 24 →
    s.wbit.toNat % 8 = 0 → s.wbit.toNat + s.depth ≤ 8 * s.bufBytes →
    ∃ t, exec (.pack code) s = .next t ∧
      ∀ k < s.depth / 8, t.byteAt (s.wbit.toNat / 8 + k) = code.extractLsb' (8 * k) 8

/-- R52, R81: UNPACK and UNPACKDQ never read past LEN: two states that differ only in the bytes of BUF at or above LEN answer
alike. -/
def Obligations.UnpackIgnoresBytesBeyondLen : Prop :=
  ∀ (s t s' : State) (i : Instr), i = .unpack ∨ i = .unpackdq →
    s' = { s with buf := s'.buf, epoch := s'.epoch } → (∀ a < s.len.toNat, s'.byteAt a = s.byteAt a) →
    exec i s = .next t → exec i s' = .next { t with buf := s'.buf, epoch := s'.epoch }

/-! ### Quantizer -/

/-- R101: QUANT at depth 1, 2, 4 or 8 with RND = FLOOR completes with the floor of the source's real-valued formula, and
changes RESULT alone; with the rule's examples. -/
def Obligations.QuantFloorIsTheSourceFormula : Prop :=
  (∀ (s : State) (sample : BitVec 16), roundingDepth s.depth → rndField s.cfg = 0#2 →
    ∃ t, exec (.quant sample) s = .next t ∧ t = succeed { s with result := t.result } ∧
      (t.result.toNat : Int) = ⌊normalizedCode sample.toInt s.depth⌋) ∧
  quantize 0 4 .floor = 7 ∧ quantize (-32768) 4 .floor = 0 ∧ quantize 32767 4 .floor = 14

/-- R102: QUANT at depth 1, 2, 4 or 8 with RND = NEAREST completes with the nearest integer to the same number, ties upward,
and changes RESULT alone; with the rule's tie. -/
def Obligations.QuantNearestRoundsTiesUp : Prop :=
  (∀ (s : State) (sample : BitVec 16), roundingDepth s.depth → rndField s.cfg = 1#2 →
    ∃ t, exec (.quant sample) s = .next t ∧ t = succeed { s with result := t.result } ∧
      (t.result.toNat : Int) = ⌊normalizedCode sample.toInt s.depth + 1 / 2⌋) ∧
  normalizedCode 0 4 = 15 / 2 ∧ quantize 0 4 .nearest = 8

/-- R103, R104: QUANT at depth 16 gives the sample's own pattern and at depth 24 the sample with a zero low byte, whatever
RND, and changes RESULT alone; with the rules' examples. -/
def Obligations.QuantPassThroughAndWidening : Prop :=
  (∀ (s : State) (sample : BitVec 16),
    (s.depth = 16 → exec (.quant sample) s = .next (succeed { s with result := sample.setWidth 24 })) ∧
    (s.depth = 24 → exec (.quant sample) s = .next (succeed { s with result := sample.setWidth 24 <<< 8 }))) ∧
  ∀ rnd, quantize 0 16 rnd = 0x0000 ∧ quantize (-1) 16 rnd = 0xFFFF ∧ quantize (-32768) 16 rnd = 0x8000 ∧
    quantize 32767 16 rnd = 0x7FFF ∧ quantize 0x1234 24 rnd = 0x123400 ∧ quantize (-1) 24 rnd = 0xFFFF00 ∧
    quantize (-32768) 24 rnd = 0x800000

/-- R105: DEQUANT at depth 1, 2, 4 or 8 completes with the source's rounded and clamped sample of the code's low N bits, as a
24-bit pattern, and changes RESULT alone; with the rule's examples. -/
def Obligations.DequantIsTheSourceFormula : Prop :=
  (∀ (s : State) (code : BitVec 24), roundingDepth s.depth →
    ∃ t, exec (.dequant code) s = .next t ∧ t = succeed { s with result := t.result } ∧
      t.result.toInt = max (-32768) (min 32767 (round (normalizedSample (code.toNat % 2 ^ s.depth) s.depth)))) ∧
  dequantize 8 4 = 2185 ∧ dequantize 7 4 = -2185 ∧ dequantize 0 4 = -32768 ∧ dequantize 15 4 = 32767 ∧
  round (normalizedSample 15 4) = 32768

/-- R106, R107: DEQUANT at depth 16 sign-extends CODE[15:0] and at depth 24 sign-extends CODE[23:8], and changes RESULT
alone; with the rules' examples. -/
def Obligations.DequantOfWideCodes : Prop :=
  (∀ (s : State) (code : BitVec 24),
    (s.depth = 16 → exec (.dequant code) s =
      .next (succeed { s with result := (code.extractLsb' 0 16).signExtend 24 })) ∧
    (s.depth = 24 → exec (.dequant code) s =
      .next (succeed { s with result := (code.extractLsb' 8 16).signExtend 24 }))) ∧
  dequantize 0xFFFF 16 = -1 ∧ dequantize 0x8000 16 = -32768 ∧ dequantize 0x1234AB 24 = 4660 ∧
  dequantize 0xFFFF00 24 = -1 ∧ dequantize 0x8000FF 24 = -32768

/-- R111: QPACK of a sample whose code fits completes in the state that QUANT and then PACK of the resulting code leave, with
one response in place of two; where the code does not fit it ends with BufferOverflow and RESULT stays. -/
def Obligations.QpackIsQuantThenPack : Prop :=
  ∀ (s : State) (sample : BitVec 16), quantDepth s.depth →
    (s.wbit.toNat + s.depth ≤ 8 * s.bufBytes →
      ∃ u v, exec (.quant sample) s = .next u ∧ exec (.pack u.result) u = .next v ∧ v.result = u.result ∧
        exec (.qpack sample) s = .next { v with responses := s.responses ++ [0#8 ++ u.result] }) ∧
    (8 * s.bufBytes < s.wbit.toNat + s.depth → FailsWith .bufferOverflow (.qpack sample) s)

/-- R112 (and 92_eei_decisions.md D20): UNPACKDQ inside the stream completes in the state that UNPACK and then DEQUANT of the
code it returned leave, with one response in place of two. -/
def Obligations.UnpackdqIsUnpackThenDequant : Prop :=
  ∀ s : State, quantDepth s.depth → s.len.toNat ≤ s.bufBytes → s.rbit.toNat + s.depth ≤ 8 * s.len.toNat →
    ∃ u v, exec .unpack s = .next u ∧ exec (.dequant u.result) u = .next v ∧
      exec .unpackdq s = .next { v with responses := s.responses ++ [0#8 ++ v.result] }

/-- R113: the ranges of Q and DQ; every code of a range occurs; DQ's clamp acts at c = M alone; Q is injective at depths 16
and 24, where its codes are all those of 16 bits and all those of 24 bits with low byte 0. -/
def Obligations.QuantizerRanges : Prop :=
  (∀ n, roundingDepth n →
    (∀ s, isSample s → quantize s n .floor ≤ 2 ^ n - 2) ∧
    (∀ c ≤ 2 ^ n - 2, ∃ s, isSample s ∧ quantize s n .floor = c) ∧
    (∀ s, isSample s → quantize s n .nearest ≤ 2 ^ n - 1) ∧
    (∀ c ≤ 2 ^ n - 1, ∃ s, isSample s ∧ quantize s n .nearest = c) ∧
    (∀ c ≤ 2 ^ n - 1, isSample (dequantize c n) ∧ (dequantize c n = dequantRaw c n ↔ c ≠ 2 ^ n - 1))) ∧
  (∀ s, isSample s → quantize s 1 .floor = 0) ∧
  (∀ n rnd, n = 16 ∨ n = 24 → ∀ s s', isSample s → isSample s' → quantize s n rnd = quantize s' n rnd → s = s') ∧
  (∀ c rnd, (∃ s, isSample s ∧ quantize s 16 rnd = c) ↔ c < 2 ^ 16) ∧
  (∀ c rnd, (∃ s, isSample s ∧ quantize s 24 rnd = c) ↔ c < 2 ^ 24 ∧ c % 256 = 0)

/-- R114: Q is non-decreasing in s and DQ in c at depths 1, 2, 4 and 8; at depths 16 and 24 Q is monotone in the signed
reading of the code, and not in the unsigned one. -/
def Obligations.QuantizerIsMonotone : Prop :=
  (∀ n rnd, roundingDepth n → ∀ s s', isSample s → isSample s' → s ≤ s' → quantize s n rnd ≤ quantize s' n rnd) ∧
  (∀ n, roundingDepth n → ∀ c c', c ≤ c' → c' ≤ 2 ^ n - 1 → dequantize c n ≤ dequantize c' n) ∧
  (∀ n rnd, n = 16 ∨ n = 24 →
    (∀ s s', isSample s → isSample s' → s ≤ s' → sext n (quantize s n rnd) ≤ sext n (quantize s' n rnd)) ∧
    ∃ s s', isSample s ∧ isSample s' ∧ s ≤ s' ∧ quantize s' n rnd < quantize s n rnd)

/-- R115: the largest round-trip error of each depth and mode, reached by some sample, and 0 at depths 16 and 24; each is
within one step 65536 / (2^N − 1) at depth 8 and above. -/
def Obligations.RoundTripErrorBounds : Prop :=
  (∀ n rnd bound, (n, rnd, bound) ∈ [(1, Rounding.floor, 65535), (1, .nearest, 32767), (2, .floor, 21845),
      (2, .nearest, 10923), (4, .floor, 4369), (4, .nearest, 2185), (8, .floor, 257), (8, .nearest, 129),
      (16, .floor, 0), (16, .nearest, 0), (24, .floor, 0), (24, .nearest, 0)] →
    (∀ s, isSample s → (s - dequantize (quantize s n rnd) n).natAbs ≤ bound) ∧
    ∃ s, isSample s ∧ (s - dequantize (quantize s n rnd) n).natAbs = bound) ∧
  ∀ n rnd, n = 8 ∨ n = 16 ∨ n = 24 → ∀ s, isSample s →
    (((s - dequantize (quantize s n rnd) n).natAbs : ℚ) ≤ 65536 / (2 ^ n - 1))

/-- R116: QUANT and then DEQUANT of its code, at depth 16 and at depth 24, return every sample exactly, whatever RND. -/
def Obligations.ExactRoundTripAtWideDepths : Prop :=
  ∀ (s : State) (sample : BitVec 16), s.depth = 16 ∨ s.depth = 24 →
    ∃ u v, exec (.quant sample) s = .next u ∧ exec (.dequant u.result) u = .next v ∧
      v.result = sample.signExtend 24

/-- R117: no code of depth 1, 2, 4 or 8 falls halfway between two samples, so every integer nearest to the exact value, by
any tie rule, is DQ's value before its clamp. -/
def Obligations.DequantHasNoTies : Prop :=
  ∀ n c : Nat, roundingDepth n → c ≤ 2 ^ n - 1 →
    (∀ k : Int, normalizedSample c n ≠ k + 1 / 2) ∧
    ∀ t : Int, |normalizedSample c n - t| ≤ 1 / 2 → t = dequantRaw c n

/-! ### Errors, STATUS and the response -/

/-- R108, R162: at a depth they do not accept, PACK and UNPACK, and QUANT, DEQUANT, QPACK and UNPACKDQ, end with
UnsupportedDepth in every state, before any other check; depth 3 is one of the second four's alone; RDREG of CFG then gives
the depth. -/
def Obligations.UnsupportedDepthIsRaised : Prop :=
  (∀ (s : State) (code : BitVec 24), ¬ (1 ≤ s.depth ∧ s.depth ≤ 24) →
    FailsWith .unsupportedDepth (.pack code) s ∧ FailsWith .unsupportedDepth .unpack s) ∧
  (∀ (s : State) (sample : BitVec 16) (code : BitVec 24), s.depth ∉ [1, 2, 4, 8, 16, 24] →
    FailsWith .unsupportedDepth (.quant sample) s ∧ FailsWith .unsupportedDepth (.dequant code) s ∧
    FailsWith .unsupportedDepth (.qpack sample) s ∧ FailsWith .unsupportedDepth .unpackdq s) ∧
  (∀ (s : State) (sample : BitVec 16), s.bufBytes ≤ 65536 → s.depth = 3 → s.wbit.toNat + 3 ≤ 8 * s.bufBytes →
    FailsWith .unsupportedDepth (.quant sample) s ∧
    ∃ t, exec (.pack 1#24) s = .next t ∧ lastErr t.status = 0#3) ∧
  ∀ s : State, exec (.rdreg 0#4) (failed .unsupportedDepth s) =
    .next (succeed { failed .unsupportedDepth s with result := s.cfg.setWidth 24 })

/-- R163: UNPACK and UNPACKDQ, at a depth they accept, end with TruncatedStream when RBIT + N > 8 × LEN; RBIT is unchanged
and the next RDREG of RBIT gives it. -/
def Obligations.TruncatedStreamIsRaised : Prop :=
  ∀ s : State, 8 * s.len.toNat < s.rbit.toNat + s.depth →
    ((1 ≤ s.depth ∧ s.depth ≤ 24) → FailsWith .truncatedStream .unpack s) ∧
    (s.depth ∈ [1, 2, 4, 8, 16, 24] → FailsWith .truncatedStream .unpackdq s) ∧
    exec (.rdreg 3#4) (failed .truncatedStream s) =
      .next (succeed { failed .truncatedStream s with result := s.rbit.setWidth 24 })

/-- R164: PACK and QPACK, at a depth they accept, end with BufferOverflow when WBIT + N > 8 × BUF_BYTES. -/
def Obligations.BufferOverflowIsRaised : Prop :=
  ∀ (s : State) (code : BitVec 24) (sample : BitVec 16), 8 * s.bufBytes < s.wbit.toNat + s.depth →
    ((1 ≤ s.depth ∧ s.depth ≤ 24) → FailsWith .bufferOverflow (.pack code) s) ∧
    (s.depth ∈ [1, 2, 4, 8, 16, 24] → FailsWith .bufferOverflow (.qpack sample) s)

/-- R165: WRBYTE and RDBYTE end with AddressRange when ADDR ≥ BUF_BYTES, SETLEN when VALUE > BUF_BYTES. -/
def Obligations.AddressRangeIsRaised : Prop :=
  ∀ (s : State) (addr : BitVec 16) (data : BitVec 8) (value : BitVec 17),
    (s.bufBytes ≤ addr.toNat →
      FailsWith .addressRange (.wrbyte addr data) s ∧ FailsWith .addressRange (.rdbyte addr) s) ∧
    (s.bufBytes < value.toNat → FailsWith .addressRange (.setlen value) s)

/-- R167: a command that ends with an error, an illegal word too, changes nothing but STATUS (and its response). -/
def Obligations.ErrorsChangeOnlyStatus : Prop :=
  ∀ (w : Word) (s t : State), runWord w s = .next t → lastErr t.status ≠ 0#3 →
    t = { s with status := t.status, responses := t.responses }

/-- R168: the order of the checks: an illegal word reports IllegalCommand in every state; a legal command at a depth it does
not accept reports UnsupportedDepth, whatever its range check; else its one range check reports. -/
def Obligations.ErrorPriority : Prop :=
  (∀ (w : Word) (s : State) (r : Illegal), decode w = .error r → runWord w s = .next (failed .illegalCommand s)) ∧
  (∀ (w : Word) (s : State), (decode w = .ok .unpack ∨ ∃ c, decode w = .ok (.pack c)) →
    ¬ (1 ≤ s.depth ∧ s.depth ≤ 24) → runWord w s = .next (failed .unsupportedDepth s)) ∧
  (∀ (w : Word) (s : State), (decode w = .ok .unpackdq ∨ (∃ x, decode w = .ok (.qpack x)) ∨
      (∃ x, decode w = .ok (.quant x)) ∨ ∃ c, decode w = .ok (.dequant c)) →
    s.depth ∉ [1, 2, 4, 8, 16, 24] → runWord w s = .next (failed .unsupportedDepth s)) ∧
  (∀ (w : Word) (s : State), (decode w = .ok .unpack ∧ 1 ≤ s.depth ∧ s.depth ≤ 24 ∨
      decode w = .ok .unpackdq ∧ s.depth ∈ [1, 2, 4, 8, 16, 24]) →
    8 * s.len.toNat < s.rbit.toNat + s.depth → runWord w s = .next (failed .truncatedStream s)) ∧
  (∀ (w : Word) (s : State), ((∃ c, decode w = .ok (.pack c)) ∧ 1 ≤ s.depth ∧ s.depth ≤ 24 ∨
      (∃ x, decode w = .ok (.qpack x)) ∧ s.depth ∈ [1, 2, 4, 8, 16, 24]) →
    8 * s.bufBytes < s.wbit.toNat + s.depth → runWord w s = .next (failed .bufferOverflow s)) ∧
  (∀ (w : Word) (s : State), ((∃ a d, decode w = .ok (.wrbyte a d) ∧ s.bufBytes ≤ a.toNat) ∨
      (∃ a, decode w = .ok (.rdbyte a) ∧ s.bufBytes ≤ a.toNat) ∨
      ∃ v, decode w = .ok (.setlen v) ∧ s.bufBytes < v.toNat) →
    runWord w s = .next (failed .addressRange s)) ∧
  ∀ s : State, s.depth = 0 → s.len = 0#17 → runWord 0x50000000#32 s = .next (failed .unsupportedDepth s)

/-- R25: a completed command leaves LASTERR the code 0 to 5 of its ending; a nonzero code sets its own sticky bit, and no
other STATUS bit changes, but for a successful ERRCLR, which leaves STATUS = 0; RDREG of STATUS gives STATUS as it was. -/
def Obligations.StatusUpdateAtCompletion : Prop :=
  (∀ (w : Word) (s t : State), runWord w s = .next t →
    (lastErr t.status).toNat ≤ 5 ∧
    (decode w = .ok .errclr → t.status = 0#8) ∧
    (decode w ≠ .ok .errclr → ∀ k < 5, (stickyBits t.status).getLsbD k =
      ((stickyBits s.status).getLsbD k || decide ((lastErr t.status).toNat = k + 1)))) ∧
  ∀ s : State, ∃ t, exec (.rdreg 1#4) s = .next t ∧ t.result = s.status.setWidth 24 ∧ lastErr t.status = 0#3

/-- R171, R138: a sticky bit that is set stays set through every step but a reset and an ERRCLR. -/
def Obligations.StickyBitsStayUntilErrclrOrReset : Prop :=
  ∀ (s t : State) (k : Nat), step s = .next t → (stickyBits s.status).getLsbD k = true →
    (stickyBits t.status).getLsbD k = true ∨
    (∃ rest, s.pending = .reset :: rest) ∨ ∃ rest, s.pending = .issue 0xE0000000#32 :: rest

/-- R75: every command gives one response: bits [31:27] are 0, ERR is LASTERR after it, DATA is RESULT after it. -/
def Obligations.EveryCommandGivesOneResponse : Prop :=
  ∀ (w : Word) (s t : State), runWord w s = .next t →
    ∃ r, t.responses = s.responses ++ [r] ∧ r.extractLsb' 27 5 = 0#5 ∧ r.extractLsb' 24 3 = lastErr t.status ∧
      r.extractLsb' 0 24 = t.result

/-- R35, and R32's column "writable by": each register except STATUS, and BUF, is changed only by the commands whose rules
name it. That no command changes the model's own fields, BUF_BYTES (log 2), the number of the draw (log 4) and the host's next
interactions (log 1), is the model's own. -/
def Obligations.OnlyNamedCommandsWriteARegister : Prop :=
  ∀ (i : Instr) (s t : State), exec i s = .next t →
    (t.cfg ≠ s.cfg → ∃ d r, i = .cfg d r) ∧
    (t.wbit ≠ s.wbit → (∃ c, i = .pack c) ∨ (∃ x, i = .qpack x) ∨ i = .pclr) ∧
    (t.rbit ≠ s.rbit → i = .unpack ∨ i = .unpackdq ∨ i = .rclr) ∧
    (t.len ≠ s.len → (∃ c, i = .pack c) ∨ (∃ x, i = .qpack x) ∨ i = .pclr ∨ ∃ v, i = .setlen v) ∧
    (t.result ≠ s.result → (∃ x, i = .quant x) ∨ (∃ c, i = .dequant c) ∨ i = .unpack ∨ (∃ x, i = .qpack x) ∨
      i = .unpackdq ∨ (∃ a, i = .rdbyte a) ∨ ∃ r, i = .rdreg r) ∧
    (t.buf ≠ s.buf → (∃ c, i = .pack c) ∨ (∃ x, i = .qpack x) ∨ ∃ a d, i = .wrbyte a d) ∧
    t.bufBytes = s.bufBytes ∧ t.epoch = s.epoch ∧ t.pending = s.pending

/-! ### Whole-machine statements -/

/-- R5, R21, R24, R26, R27, R28, R40: the invariant holds after reset, of a block of every legal size. That no byte below WBIT
is unwritten then is the model's own clause. -/
def Obligations.InvariantHoldsAtReset : Prop :=
  (∀ n epoch, 1 ≤ n → n ≤ 65536 → (State.resetWith n epoch).Inv) ∧ State.reset.Inv

/-- R21, R24, R26, R27, R28, R40: every step from a state with the invariant keeps it: the cursors and LEN stay inside BUF,
RND stays 0 or 1, STATUS stays one R25 produces, BUF stays canonical and inside its addresses, and every byte below WBIT
stays written. -/
def Obligations.StepKeepsTheInvariant : Prop := ∀ s t : State, s.Inv → step s = .next t → t.Inv

/-- R160: from every state with the invariant every command word completes, with success or with exactly one error code,
which the response, LASTERR and, where it is an error, its sticky bit report. -/
def Obligations.EveryCommandCompletes : Prop :=
  ∀ (w : Word) (s : State), s.Inv → ∃ (t : State) (e : Option CmdError), runWord w s = .next t ∧
    lastErr t.status = (e.map errorCode).getD 0#3 ∧
    t.responses = s.responses ++ [0#5 ++ (e.map errorCode).getD 0#3 ++ t.result] ∧
    ∀ e', e = some e' → t.status.getLsbD ((errorCode e').toNat + 2) = true

/-- R186: the block always responds: no step from a state with the invariant stops. With nothing pending the step changes
nothing, which is the model's choice (log 1). -/
def Obligations.NoStepStops : Prop := ∀ s : State, s.Inv → ∃ t, step s = .next t

/-- The model's choice (log 8), for states that R28 rules out: where the bits to read lie inside LEN and past BUF_BYTES, UNPACK
and UNPACKDQ, at a depth they accept, fault. -/
def Obligations.UnpackPastTheBufferFaults : Prop :=
  ∀ s : State, 8 * s.bufBytes < s.rbit.toNat + s.depth → s.rbit.toNat + s.depth ≤ 8 * s.len.toNat →
    ((1 ≤ s.depth ∧ s.depth ≤ 24) → exec .unpack s = .fault .outsideBuffer) ∧
    (s.depth ∈ [1, 2, 4, 8, 16, 24] → exec .unpackdq s = .fault .outsideBuffer)

/-- R182: what BUF held at reset does not matter to packing: with another draw of the unwritten bytes, PACK and QPACK of every
state with the invariant write the same. -/
def Obligations.PackingDoesNotReadUnwrittenBytes : Prop :=
  ∀ (s t : State) (i : Instr) (epoch : Nat), s.Inv → ((∃ code, i = .pack code) ∨ ∃ sample, i = .qpack sample) →
    exec i s = .next t → exec i { s with epoch := epoch } = .next { t with epoch := epoch }

/-- R182: a byte of BUF that nothing has written since reset reads as its draw, RDBYTE gives that value, and every command
that does not write the byte leaves it. The form of the draw is the model's own (log 3). -/
def Obligations.UnwrittenBytesKeepTheirDraw : Prop :=
  ∀ (s t : State) (i : Instr) (addr : BitVec 16), t.buf.read? addr.toNat = none → exec i s = .next t →
    addr.toNat < s.bufBytes →
    s.buf.read? addr.toNat = none ∧ t.byteAt addr.toNat = s.byteAt addr.toNat ∧
    exec (.rdbyte addr) t =
      .next (succeed { t with result := (Config.unwrittenByte t.epoch addr.toNat).setWidth 24 })

/-- R77: LDSTREAM of at most BUF_BYTES bytes leaves them as the stream, RBIT at 0, and WBIT, CFG and RESULT as they were. -/
def Obligations.LdstreamLoadsTheStream : Prop :=
  ∀ (s : State) (bytes : List Byte), s.bufBytes ≤ 65536 → bytes.length ≤ s.bufBytes →
    ∃ t, execAll (ldstream bytes) s = .next t ∧ t.stream = bytes ∧ t.len.toNat = bytes.length ∧ t.rbit = 0#20 ∧
      t.wbit = s.wbit ∧ t.cfg = s.cfg ∧ t.result = s.result ∧ ∀ a, bytes.length ≤ a → t.byteAt a = s.byteAt a

/-! ### Runs -/

/-- R189, R160, R186: a run of any interactions from the reset state, illegal words and resets among them, ends, with one
response for each command, all interactions taken, and a final state that has the invariant, whose packed stream is
BUF[0 .. LEN−1]. The host's interactions as a list, the draws and the responses in the state are the model's own (log 1, log 3,
log 4, log 6, log 16). -/
def Obligations.EveryRunHasAnOutcome : Prop :=
  ∀ (n epoch : Nat) (xs : List Interaction), 1 ≤ n → n ≤ 65536 →
    ∃ o, runOutcome n epoch xs = .next o ∧ o.responses.length = xs.countP isCommand ∧
      o.final.bufBytes = n ∧ o.final.pending = [] ∧ o.final.Inv ∧ o.stream.length = o.final.len.toNat ∧
      ∀ (a : Nat) (h : a < o.stream.length), o.stream[a] = o.final.byteAt a

/-- R180, R181: what follows a reset inside a run goes as if the run began there: the final state is that of the later
interactions alone, with the draw that follows the earlier resets, and the responses are those of the two parts. The number of
the draw and the kept responses are the model's own (log 4, log 6). -/
def Obligations.ResetStartsTheRunAgain : Prop :=
  ∀ (n epoch : Nat) (xs ys : List Interaction), 1 ≤ n → n ≤ 65536 →
    ∃ o p q, runOutcome n epoch (xs ++ .reset :: ys) = .next o ∧ runOutcome n epoch xs = .next p ∧
      runOutcome n (epoch + xs.count .reset + 1) ys = .next q ∧
      o.responses = p.responses ++ q.responses ∧ o.final = { q.final with responses := o.responses }
end

