-- ==== Sys2Proof/Laws/Decode.lean ====
section
/-! SUPPORT. The fields of a word and of an operand field, read back from their concatenation and put together again. -/

namespace Sys2Proof

/-- R60: OP of a word built from its fields. -/
@[simp] theorem opField_wordOf (op : BitVec 4) (imm : Imm) : opField (wordOf op imm) = op := by
  refine BitVec.eq_of_getLsbD_eq fun i hi => ?_
  simp only [opField, wordOf, BitVec.getLsbD_extractLsb', BitVec.getLsbD_append]
  interval_cases i <;> simp

@[simp] theorem rsvField_wordOf (op : BitVec 4) (imm : Imm) : rsvField (wordOf op imm) = 0#4 := by
  refine BitVec.eq_of_getLsbD_eq fun i hi => ?_
  simp only [rsvField, wordOf, BitVec.getLsbD_extractLsb', BitVec.getLsbD_append]
  interval_cases i <;> simp

@[simp] theorem immField_wordOf (op : BitVec 4) (imm : Imm) : immField (wordOf op imm) = imm := by
  refine BitVec.eq_of_getLsbD_eq fun i hi => ?_
  simp only [immField, wordOf, BitVec.getLsbD_extractLsb', BitVec.getLsbD_append]
  interval_cases i <;> simp

/-- A word with RSV = 0 is the word of its other two fields. -/
theorem wordOf_fields {w : Word} (h : rsvField w = 0#4) : wordOf (opField w) (immField w) = w := by
  have hr : ∀ i, 24 ≤ i → i < 28 → w.getLsbD i = false := by
    intro i h1 h2
    have := congrArg (fun x => x.getLsbD (i - 24)) h
    simpa [rsvField, BitVec.getLsbD_extractLsb', show i - 24 < 4 by omega, show 24 + (i - 24) = i by omega] using this
  refine BitVec.eq_of_getLsbD_eq fun i hi => ?_
  simp only [wordOf, opField, immField, BitVec.getLsbD_append, BitVec.getLsbD_extractLsb']
  by_cases h1 : i < 24
  · simp [h1]
  · by_cases h2 : i < 28
    · rw [hr i (by omega) h2]
      simp [h1, show i - 24 < 4 by omega]
    · simp [h1, show ¬ i - 24 < 4 by omega, show i - 24 - 4 < 4 by omega, show 28 + (i - 24 - 4) = i by omega]

end Sys2Proof
end

