-- ==== Sys2Proof/Laws/State.lean ====
section
/-! SUPPORT. One lemma per field per update of the state, and what the updates leave of the derived reads. -/

namespace Sys2Proof.Machine

section

variable (s : State) (v : BitVec 7)

@[simp] theorem State.withCfg_bufBytes : (s.withCfg v).bufBytes = s.bufBytes := rfl
@[simp] theorem State.withCfg_cfg : (s.withCfg v).cfg = v := rfl
@[simp] theorem State.withCfg_status : (s.withCfg v).status = s.status := rfl
@[simp] theorem State.withCfg_wbit : (s.withCfg v).wbit = s.wbit := rfl
@[simp] theorem State.withCfg_rbit : (s.withCfg v).rbit = s.rbit := rfl
@[simp] theorem State.withCfg_len : (s.withCfg v).len = s.len := rfl
@[simp] theorem State.withCfg_result : (s.withCfg v).result = s.result := rfl
@[simp] theorem State.withCfg_buf : (s.withCfg v).buf = s.buf := rfl
@[simp] theorem State.withCfg_epoch : (s.withCfg v).epoch = s.epoch := rfl
@[simp] theorem State.withCfg_pending : (s.withCfg v).pending = s.pending := rfl
@[simp] theorem State.withCfg_responses : (s.withCfg v).responses = s.responses := rfl
@[simp] theorem State.withCfg_byteAt (a : Nat) : (s.withCfg v).byteAt a = s.byteAt a := rfl
@[simp] theorem State.withCfg_bitAt (g : Nat) : (s.withCfg v).bitAt g = s.bitAt g := rfl

end

section

variable (s : State) (v : BitVec 8)

@[simp] theorem State.withStatus_bufBytes : (s.withStatus v).bufBytes = s.bufBytes := rfl
@[simp] theorem State.withStatus_cfg : (s.withStatus v).cfg = s.cfg := rfl
@[simp] theorem State.withStatus_status : (s.withStatus v).status = v := rfl
@[simp] theorem State.withStatus_wbit : (s.withStatus v).wbit = s.wbit := rfl
@[simp] theorem State.withStatus_rbit : (s.withStatus v).rbit = s.rbit := rfl
@[simp] theorem State.withStatus_len : (s.withStatus v).len = s.len := rfl
@[simp] theorem State.withStatus_result : (s.withStatus v).result = s.result := rfl
@[simp] theorem State.withStatus_buf : (s.withStatus v).buf = s.buf := rfl
@[simp] theorem State.withStatus_epoch : (s.withStatus v).epoch = s.epoch := rfl
@[simp] theorem State.withStatus_pending : (s.withStatus v).pending = s.pending := rfl
@[simp] theorem State.withStatus_responses : (s.withStatus v).responses = s.responses := rfl
@[simp] theorem State.withStatus_depth : (s.withStatus v).depth = s.depth := rfl
@[simp] theorem State.withStatus_rounding : (s.withStatus v).rounding = s.rounding := rfl
@[simp] theorem State.withStatus_byteAt (a : Nat) : (s.withStatus v).byteAt a = s.byteAt a := rfl
@[simp] theorem State.withStatus_bitAt (g : Nat) : (s.withStatus v).bitAt g = s.bitAt g := rfl

end

section

variable (s : State) (v : BitVec 20)

@[simp] theorem State.withWbit_bufBytes : (s.withWbit v).bufBytes = s.bufBytes := rfl
@[simp] theorem State.withWbit_cfg : (s.withWbit v).cfg = s.cfg := rfl
@[simp] theorem State.withWbit_status : (s.withWbit v).status = s.status := rfl
@[simp] theorem State.withWbit_wbit : (s.withWbit v).wbit = v := rfl
@[simp] theorem State.withWbit_rbit : (s.withWbit v).rbit = s.rbit := rfl
@[simp] theorem State.withWbit_len : (s.withWbit v).len = s.len := rfl
@[simp] theorem State.withWbit_result : (s.withWbit v).result = s.result := rfl
@[simp] theorem State.withWbit_buf : (s.withWbit v).buf = s.buf := rfl
@[simp] theorem State.withWbit_epoch : (s.withWbit v).epoch = s.epoch := rfl
@[simp] theorem State.withWbit_pending : (s.withWbit v).pending = s.pending := rfl
@[simp] theorem State.withWbit_responses : (s.withWbit v).responses = s.responses := rfl
@[simp] theorem State.withWbit_depth : (s.withWbit v).depth = s.depth := rfl
@[simp] theorem State.withWbit_rounding : (s.withWbit v).rounding = s.rounding := rfl
@[simp] theorem State.withWbit_byteAt (a : Nat) : (s.withWbit v).byteAt a = s.byteAt a := rfl
@[simp] theorem State.withWbit_bitAt (g : Nat) : (s.withWbit v).bitAt g = s.bitAt g := rfl

end

section

variable (s : State) (v : BitVec 20)

@[simp] theorem State.withRbit_bufBytes : (s.withRbit v).bufBytes = s.bufBytes := rfl
@[simp] theorem State.withRbit_cfg : (s.withRbit v).cfg = s.cfg := rfl
@[simp] theorem State.withRbit_status : (s.withRbit v).status = s.status := rfl
@[simp] theorem State.withRbit_wbit : (s.withRbit v).wbit = s.wbit := rfl
@[simp] theorem State.withRbit_rbit : (s.withRbit v).rbit = v := rfl
@[simp] theorem State.withRbit_len : (s.withRbit v).len = s.len := rfl
@[simp] theorem State.withRbit_result : (s.withRbit v).result = s.result := rfl
@[simp] theorem State.withRbit_buf : (s.withRbit v).buf = s.buf := rfl
@[simp] theorem State.withRbit_epoch : (s.withRbit v).epoch = s.epoch := rfl
@[simp] theorem State.withRbit_pending : (s.withRbit v).pending = s.pending := rfl
@[simp] theorem State.withRbit_responses : (s.withRbit v).responses = s.responses := rfl
@[simp] theorem State.withRbit_depth : (s.withRbit v).depth = s.depth := rfl
@[simp] theorem State.withRbit_rounding : (s.withRbit v).rounding = s.rounding := rfl
@[simp] theorem State.withRbit_byteAt (a : Nat) : (s.withRbit v).byteAt a = s.byteAt a := rfl
@[simp] theorem State.withRbit_bitAt (g : Nat) : (s.withRbit v).bitAt g = s.bitAt g := rfl

end

section

variable (s : State) (v : BitVec 17)

@[simp] theorem State.withLen_bufBytes : (s.withLen v).bufBytes = s.bufBytes := rfl
@[simp] theorem State.withLen_cfg : (s.withLen v).cfg = s.cfg := rfl
@[simp] theorem State.withLen_status : (s.withLen v).status = s.status := rfl
@[simp] theorem State.withLen_wbit : (s.withLen v).wbit = s.wbit := rfl
@[simp] theorem State.withLen_rbit : (s.withLen v).rbit = s.rbit := rfl
@[simp] theorem State.withLen_len : (s.withLen v).len = v := rfl
@[simp] theorem State.withLen_result : (s.withLen v).result = s.result := rfl
@[simp] theorem State.withLen_buf : (s.withLen v).buf = s.buf := rfl
@[simp] theorem State.withLen_epoch : (s.withLen v).epoch = s.epoch := rfl
@[simp] theorem State.withLen_pending : (s.withLen v).pending = s.pending := rfl
@[simp] theorem State.withLen_responses : (s.withLen v).responses = s.responses := rfl
@[simp] theorem State.withLen_depth : (s.withLen v).depth = s.depth := rfl
@[simp] theorem State.withLen_rounding : (s.withLen v).rounding = s.rounding := rfl
@[simp] theorem State.withLen_byteAt (a : Nat) : (s.withLen v).byteAt a = s.byteAt a := rfl
@[simp] theorem State.withLen_bitAt (g : Nat) : (s.withLen v).bitAt g = s.bitAt g := rfl

end

section

variable (s : State) (v : Data)

@[simp] theorem State.withResult_bufBytes : (s.withResult v).bufBytes = s.bufBytes := rfl
@[simp] theorem State.withResult_cfg : (s.withResult v).cfg = s.cfg := rfl
@[simp] theorem State.withResult_status : (s.withResult v).status = s.status := rfl
@[simp] theorem State.withResult_wbit : (s.withResult v).wbit = s.wbit := rfl
@[simp] theorem State.withResult_rbit : (s.withResult v).rbit = s.rbit := rfl
@[simp] theorem State.withResult_len : (s.withResult v).len = s.len := rfl
@[simp] theorem State.withResult_result : (s.withResult v).result = v := rfl
@[simp] theorem State.withResult_buf : (s.withResult v).buf = s.buf := rfl
@[simp] theorem State.withResult_epoch : (s.withResult v).epoch = s.epoch := rfl
@[simp] theorem State.withResult_pending : (s.withResult v).pending = s.pending := rfl
@[simp] theorem State.withResult_responses : (s.withResult v).responses = s.responses := rfl
@[simp] theorem State.withResult_depth : (s.withResult v).depth = s.depth := rfl
@[simp] theorem State.withResult_rounding : (s.withResult v).rounding = s.rounding := rfl
@[simp] theorem State.withResult_byteAt (a : Nat) : (s.withResult v).byteAt a = s.byteAt a := rfl
@[simp] theorem State.withResult_bitAt (g : Nat) : (s.withResult v).bitAt g = s.bitAt g := rfl

end

section

variable (s : State) (v : Memory)

@[simp] theorem State.withBuf_bufBytes : (s.withBuf v).bufBytes = s.bufBytes := rfl
@[simp] theorem State.withBuf_cfg : (s.withBuf v).cfg = s.cfg := rfl
@[simp] theorem State.withBuf_status : (s.withBuf v).status = s.status := rfl
@[simp] theorem State.withBuf_wbit : (s.withBuf v).wbit = s.wbit := rfl
@[simp] theorem State.withBuf_rbit : (s.withBuf v).rbit = s.rbit := rfl
@[simp] theorem State.withBuf_len : (s.withBuf v).len = s.len := rfl
@[simp] theorem State.withBuf_result : (s.withBuf v).result = s.result := rfl
@[simp] theorem State.withBuf_buf : (s.withBuf v).buf = v := rfl
@[simp] theorem State.withBuf_epoch : (s.withBuf v).epoch = s.epoch := rfl
@[simp] theorem State.withBuf_pending : (s.withBuf v).pending = s.pending := rfl
@[simp] theorem State.withBuf_responses : (s.withBuf v).responses = s.responses := rfl
@[simp] theorem State.withBuf_depth : (s.withBuf v).depth = s.depth := rfl
@[simp] theorem State.withBuf_rounding : (s.withBuf v).rounding = s.rounding := rfl

end

section

variable (s : State) (v : List Interaction)

@[simp] theorem State.withPending_bufBytes : (s.withPending v).bufBytes = s.bufBytes := rfl
@[simp] theorem State.withPending_cfg : (s.withPending v).cfg = s.cfg := rfl
@[simp] theorem State.withPending_status : (s.withPending v).status = s.status := rfl
@[simp] theorem State.withPending_wbit : (s.withPending v).wbit = s.wbit := rfl
@[simp] theorem State.withPending_rbit : (s.withPending v).rbit = s.rbit := rfl
@[simp] theorem State.withPending_len : (s.withPending v).len = s.len := rfl
@[simp] theorem State.withPending_result : (s.withPending v).result = s.result := rfl
@[simp] theorem State.withPending_buf : (s.withPending v).buf = s.buf := rfl
@[simp] theorem State.withPending_epoch : (s.withPending v).epoch = s.epoch := rfl
@[simp] theorem State.withPending_pending : (s.withPending v).pending = v := rfl
@[simp] theorem State.withPending_responses : (s.withPending v).responses = s.responses := rfl
@[simp] theorem State.withPending_depth : (s.withPending v).depth = s.depth := rfl
@[simp] theorem State.withPending_rounding : (s.withPending v).rounding = s.rounding := rfl
@[simp] theorem State.withPending_byteAt (a : Nat) : (s.withPending v).byteAt a = s.byteAt a := rfl
@[simp] theorem State.withPending_bitAt (g : Nat) : (s.withPending v).bitAt g = s.bitAt g := rfl

end

section

variable (s : State) (a : Nat) (v : Byte)

@[simp] theorem State.storeByte_bufBytes : (s.storeByte a v).bufBytes = s.bufBytes := rfl
@[simp] theorem State.storeByte_cfg : (s.storeByte a v).cfg = s.cfg := rfl
@[simp] theorem State.storeByte_status : (s.storeByte a v).status = s.status := rfl
@[simp] theorem State.storeByte_wbit : (s.storeByte a v).wbit = s.wbit := rfl
@[simp] theorem State.storeByte_rbit : (s.storeByte a v).rbit = s.rbit := rfl
@[simp] theorem State.storeByte_len : (s.storeByte a v).len = s.len := rfl
@[simp] theorem State.storeByte_result : (s.storeByte a v).result = s.result := rfl
@[simp] theorem State.storeByte_epoch : (s.storeByte a v).epoch = s.epoch := rfl
@[simp] theorem State.storeByte_pending : (s.storeByte a v).pending = s.pending := rfl
@[simp] theorem State.storeByte_responses : (s.storeByte a v).responses = s.responses := rfl
@[simp] theorem State.storeByte_buf : (s.storeByte a v).buf = s.buf.write a v := rfl

end

section

variable (s : State) (n v : Nat)

@[simp] theorem State.appendCode_bufBytes : (s.appendCode n v).bufBytes = s.bufBytes := rfl
@[simp] theorem State.appendCode_cfg : (s.appendCode n v).cfg = s.cfg := rfl
@[simp] theorem State.appendCode_status : (s.appendCode n v).status = s.status := rfl
@[simp] theorem State.appendCode_rbit : (s.appendCode n v).rbit = s.rbit := rfl
@[simp] theorem State.appendCode_result : (s.appendCode n v).result = s.result := rfl
@[simp] theorem State.appendCode_epoch : (s.appendCode n v).epoch = s.epoch := rfl
@[simp] theorem State.appendCode_pending : (s.appendCode n v).pending = s.pending := rfl
@[simp] theorem State.appendCode_responses : (s.appendCode n v).responses = s.responses := rfl
@[simp] theorem State.appendCode_wbit : (s.appendCode n v).wbit = BitVec.ofNat 20 (s.wbit.toNat + n) := rfl
@[simp] theorem State.appendCode_len :
    (s.appendCode n v).len = BitVec.ofNat 17 (ceilDiv8 (s.wbit.toNat + n)) := rfl

end

section

variable (s : State) (e : Option CmdError)

@[simp] theorem State.complete_bufBytes : (s.complete e).bufBytes = s.bufBytes := rfl
@[simp] theorem State.complete_cfg : (s.complete e).cfg = s.cfg := rfl
@[simp] theorem State.complete_wbit : (s.complete e).wbit = s.wbit := rfl
@[simp] theorem State.complete_rbit : (s.complete e).rbit = s.rbit := rfl
@[simp] theorem State.complete_len : (s.complete e).len = s.len := rfl
@[simp] theorem State.complete_result : (s.complete e).result = s.result := rfl
@[simp] theorem State.complete_buf : (s.complete e).buf = s.buf := rfl
@[simp] theorem State.complete_epoch : (s.complete e).epoch = s.epoch := rfl
@[simp] theorem State.complete_pending : (s.complete e).pending = s.pending := rfl
@[simp] theorem State.complete_status : (s.complete e).status = statusOnComplete e s.status := rfl
@[simp] theorem State.complete_responses :
    (s.complete e).responses = s.responses ++ [responseWord (statusOnComplete e s.status) s.result] := rfl
@[simp] theorem State.complete_depth : (s.complete e).depth = s.depth := rfl
@[simp] theorem State.complete_rounding : (s.complete e).rounding = s.rounding := rfl
@[simp] theorem State.complete_byteAt (a : Nat) : (s.complete e).byteAt a = s.byteAt a := rfl
@[simp] theorem State.complete_bitAt (g : Nat) : (s.complete e).bitAt g = s.bitAt g := rfl

end

section

variable (s : State)

@[simp] theorem State.takeReset_bufBytes : s.takeReset.bufBytes = s.bufBytes := rfl
@[simp] theorem State.takeReset_cfg : s.takeReset.cfg = 16#7 := rfl
@[simp] theorem State.takeReset_status : s.takeReset.status = 0#8 := rfl
@[simp] theorem State.takeReset_wbit : s.takeReset.wbit = 0#20 := rfl
@[simp] theorem State.takeReset_rbit : s.takeReset.rbit = 0#20 := rfl
@[simp] theorem State.takeReset_len : s.takeReset.len = 0#17 := rfl
@[simp] theorem State.takeReset_result : s.takeReset.result = 0#24 := rfl
@[simp] theorem State.takeReset_buf : s.takeReset.buf = [] := rfl
@[simp] theorem State.takeReset_epoch : s.takeReset.epoch = s.epoch + 1 := rfl
@[simp] theorem State.takeReset_pending : s.takeReset.pending = s.pending := rfl
@[simp] theorem State.takeReset_responses : s.takeReset.responses = s.responses := rfl

end

end Sys2Proof.Machine
end

