-- ==== Sys2Proof/Laws/Memory.lean ====
section
/-! SUPPORT. BUF: read after write, the canonical form (log 5), the value of a run of bits, and the bit view after packing. -/

namespace Sys2Proof.Machine

/-! ### The value of a run of bits (R43) -/

theorem bitsValue_lt (f : Nat → Bool) (n : Nat) : bitsValue f n < 2 ^ n := by
  induction n with
  | zero => simp [bitsValue]
  | succ n ih =>
    have h : (f n).toNat ≤ 1 := Bool.toNat_le _
    simp only [bitsValue, pow_succ]
    nlinarith [Nat.mul_le_mul_right (2 ^ n) h]

theorem testBit_bitsValue (f : Nat → Bool) (n b : Nat) : (bitsValue f n).testBit b = (decide (b < n) && f b) := by
  induction n with
  | zero => simp [bitsValue]
  | succ n ih =>
    have hlt := bitsValue_lt f n
    rw [bitsValue, Nat.add_comm, Nat.mul_comm, Nat.testBit_two_pow_mul_add _ hlt]
    by_cases hb : b < n
    · simp [hb, ih, Nat.lt_succ_of_lt hb]
    · rcases Nat.eq_or_lt_of_le (Nat.le_of_not_lt hb) with rfl | h
      · cases f n <;> simp
      · have h1 : ¬ b < n + 1 := by omega
        have h2 : Nat.testBit 1 (b - n) = false := Nat.testBit_lt_two_pow (Nat.one_lt_two_pow (by omega))
        cases f n <;> simp [hb, h1, h2]

theorem bitsValue_congr {f g : Nat → Bool} {n : Nat} (h : ∀ b < n, f b = g b) : bitsValue f n = bitsValue g n := by
  refine Nat.eq_of_testBit_eq fun b => ?_
  simp only [testBit_bitsValue]
  by_cases hb : b < n <;> simp [hb, h]

theorem bitsValue_testBit (v n : Nat) : bitsValue v.testBit n = v % 2 ^ n := by
  refine Nat.eq_of_testBit_eq fun b => ?_
  simp [testBit_bitsValue, Nat.testBit_mod_two_pow]

theorem bitRead_lt (view : Nat → Bool) (g n : Nat) : bitRead view g n < 2 ^ n := bitsValue_lt _ n

theorem testBit_bitRead (view : Nat → Bool) (g n b : Nat) :
    (bitRead view g n).testBit b = (decide (b < n) && view (g + b)) := testBit_bitsValue _ n b

theorem byteOfView_getLsbD (view : Nat → Bool) (a i : Nat) (h : i < 8) :
    (byteOfView view a).getLsbD i = view (8 * a + i) := by
  rw [byteOfView, BitVec.getLsbD_ofNat, testBit_bitRead]
  simp [h]

/-! ### Read after write -/

theorem Memory.read?_write (m : Memory) (a b : Nat) (v : Byte) :
    (m.write a v).read? b = if b = a then some v else m.read? b := by
  induction m with
  | nil =>
    by_cases h : a = b
    · simp [Memory.write, Memory.read?, h]
    · simp [Memory.write, Memory.read?, h, Ne.symm h]
  | cons c m ih =>
    obtain ⟨x, u⟩ := c
    simp only [Memory.write]
    split
    · by_cases h : a = b
      · simp [Memory.read?, h]
      · simp [Memory.read?, h, Ne.symm h]
    · split
      · next h =>
        subst h
        by_cases h : a = b
        · simp [Memory.read?, h]
        · simp [Memory.read?, h, Ne.symm h]
      · next h1 h2 =>
        by_cases h : x = b
        · subst h
          simp [Memory.read?, Ne.symm h2]
        · simp [Memory.read?, h, ih]

theorem Memory.read?_storeView (m : Memory) (view : Nat → Bool) (a count b : Nat) :
    (m.storeView view a count).read? b =
      if a ≤ b ∧ b < a + count then some (byteOfView view b) else m.read? b := by
  induction count generalizing m a with
  | zero => simp [Memory.storeView]
  | succ k ih =>
    rw [Memory.storeView, ih, Memory.read?_write]
    by_cases hb : b = a
    · subst hb; simp
    · by_cases h : a + 1 ≤ b ∧ b < a + 1 + k
      · rw [if_pos h, if_pos (by omega)]
      · rw [if_neg h, if_neg hb, if_neg (by omega)]

theorem Memory.mem_write {m : Memory} {a : Nat} {v : Byte} {c : Host.Cell} (h : c ∈ m.write a v) :
    c = (a, v) ∨ c ∈ m := by
  induction m with
  | nil => simpa [Memory.write] using h
  | cons d m ih =>
    obtain ⟨x, u⟩ := d
    simp only [Memory.write] at h
    split at h
    · simpa using h
    · split at h
      · rcases List.mem_cons.1 h with h | h
        · exact .inl h
        · exact .inr (List.mem_cons_of_mem _ h)
      · rcases List.mem_cons.1 h with h | h
        · exact .inr (h ▸ List.mem_cons_self)
        · exact (ih h).imp_right (List.mem_cons_of_mem _)

theorem Memory.mem_storeView {m : Memory} {view : Nat → Bool} {a count : Nat} {c : Host.Cell}
    (h : c ∈ m.storeView view a count) : (a ≤ c.1 ∧ c.1 < a + count) ∨ c ∈ m := by
  induction count generalizing m a with
  | zero => exact .inr h
  | succ k ih =>
    rcases ih h with h | h
    · exact .inl (by omega)
    · rcases Memory.mem_write h with rfl | h
      · exact .inl (by simp)
      · exact .inr h

/-! ### The canonical form -/

theorem Memory.wf_nil : Memory.wf [] := List.Pairwise.nil

theorem Memory.write_wf {m : Memory} (h : m.wf) (a : Nat) (v : Byte) : (m.write a v).wf := by
  induction m with
  | nil => simp [Memory.write, Memory.wf]
  | cons c m ih =>
    obtain ⟨x, u⟩ := c
    have ⟨hx, hm⟩ := List.pairwise_cons.1 h
    simp only [Memory.write]
    split
    · next hlt =>
      refine List.pairwise_cons.2 ⟨fun d hd => ?_, h⟩
      rcases List.mem_cons.1 hd with rfl | hd
      · exact hlt
      · exact Nat.lt_trans hlt (hx d hd)
    · split
      · next heq =>
        subst heq
        exact List.pairwise_cons.2 ⟨hx, hm⟩
      · next h1 h2 =>
        refine List.pairwise_cons.2 ⟨fun d hd => ?_, ih hm⟩
        rcases Memory.mem_write hd with rfl | hd
        · simp; omega
        · exact hx d hd

theorem Memory.storeView_wf {m : Memory} (h : m.wf) (view : Nat → Bool) (a count : Nat) :
    (m.storeView view a count).wf := by
  induction count generalizing m a with
  | zero => exact h
  | succ k ih => exact ih (Memory.write_wf h a _) (a + 1)

theorem Memory.read?_eq_none_of_lt {m : Memory} {a : Nat} (h : ∀ c ∈ m, a < c.1) : m.read? a = none := by
  induction m with
  | nil => rfl
  | cons c m ih =>
    obtain ⟨x, u⟩ := c
    have hx : a < x := h (x, u) List.mem_cons_self
    simp [Memory.read?, Nat.ne_of_gt hx, ih fun c hc => h c (List.mem_cons_of_mem _ hc)]

/-- Canonical memories that read alike are the same list. -/
theorem Memory.ext_of_read? {m n : Memory} (hm : m.wf) (hn : n.wf) (h : ∀ a, m.read? a = n.read? a) : m = n := by
  induction m generalizing n with
  | nil =>
    cases n with
    | nil => rfl
    | cons d n => simpa [Memory.read?] using h d.1
  | cons c m ih =>
    obtain ⟨x, u⟩ := c
    have ⟨hx, hm'⟩ := List.pairwise_cons.1 hm
    cases n with
    | nil => simpa [Memory.read?] using h x
    | cons d n =>
      obtain ⟨y, w⟩ := d
      have ⟨hy, hn'⟩ := List.pairwise_cons.1 hn
      have hxy : x = y := by
        rcases Nat.lt_trichotomy x y with hlt | heq | hlt
        · have := h x
          rw [Memory.read?_eq_none_of_lt (m := (y, w) :: n)] at this
          · simp [Memory.read?] at this
          · intro c hc
            rcases List.mem_cons.1 hc with rfl | hc
            · exact hlt
            · exact Nat.lt_trans hlt (hy c hc)
        · exact heq
        · have := h y
          rw [Memory.read?_eq_none_of_lt (m := (x, u) :: m)] at this
          · simp [Memory.read?] at this
          · intro c hc
            rcases List.mem_cons.1 hc with rfl | hc
            · exact hlt
            · exact Nat.lt_trans hlt (hx c hc)
      subst hxy
      have hu : u = w := by simpa [Memory.read?] using h x
      subst hu
      congr 1
      refine ih hm' hn' fun a => ?_
      by_cases ha : x = a
      · subst ha
        rw [Memory.read?_eq_none_of_lt hx, Memory.read?_eq_none_of_lt hy]
      · simpa [Memory.read?, ha] using h a

/-! ### BUF through the state -/

theorem State.byteAt_storeByte (s : State) (a b : Nat) (v : Byte) :
    (s.storeByte a v).byteAt b = if b = a then v else s.byteAt b := by
  simp only [State.byteAt, State.storeByte_buf, State.storeByte_epoch, Memory.read?_write]
  split <;> rfl

/-- The bits of BUF after PACK's writes: the code from WBIT on, zeros up to the end of its last byte, the rest as before. -/
theorem State.bitAt_appendCode (s : State) (n v g : Nat) :
    (s.appendCode n v).bitAt g =
      if s.wbit.toNat ≤ g ∧ g < s.wbit.toNat + n then v.testBit (g - s.wbit.toNat)
      else if s.wbit.toNat + n ≤ g ∧ g < 8 * ceilDiv8 (s.wbit.toNat + n) then false
      else s.bitAt g := by
  have hview : ∀ h, clearPad (s.wbit.toNat + n) (bitWrite s.wbit.toNat n v s.bitAt) h =
      if s.wbit.toNat ≤ h ∧ h < s.wbit.toNat + n then v.testBit (h - s.wbit.toNat)
      else if s.wbit.toNat + n ≤ h ∧ h < 8 * ceilDiv8 (s.wbit.toNat + n) then false
      else s.bitAt h := by
    intro h
    simp only [clearPad, bitWrite]
    by_cases h1 : s.wbit.toNat ≤ h ∧ h < s.wbit.toNat + n
    · rw [if_neg (by omega), if_pos h1, if_pos h1]
    · simp only [if_neg h1]
  have hbuf : (s.appendCode n v).buf = s.buf.storeView
      (clearPad (s.wbit.toNat + n) (bitWrite s.wbit.toNat n v s.bitAt)) (s.wbit.toNat / 8)
      (ceilDiv8 (s.wbit.toNat + n) - s.wbit.toNat / 8) := rfl
  have hge : s.wbit.toNat / 8 ≤ ceilDiv8 (s.wbit.toNat + n) := by simp only [ceilDiv8]; omega
  rw [← hview g]
  unfold State.bitAt State.byteAt
  rw [hbuf, Memory.read?_storeView, State.appendCode_epoch]
  by_cases hin : s.wbit.toNat / 8 ≤ g / 8 ∧ g / 8 < s.wbit.toNat / 8 + (ceilDiv8 (s.wbit.toNat + n) - s.wbit.toNat / 8)
  · rw [if_pos hin, Option.getD_some, byteOfView_getLsbD _ _ _ (Nat.mod_lt _ (by omega)), Nat.div_add_mod]
    rfl
  · rw [if_neg hin]
    have h1 : ¬ (s.wbit.toNat ≤ g ∧ g < s.wbit.toNat + n) := by simp only [ceilDiv8] at hin hge; omega
    have h2 : ¬ (s.wbit.toNat + n ≤ g ∧ g < 8 * ceilDiv8 (s.wbit.toNat + n)) := by omega
    have := hview g
    rw [if_neg h1, if_neg h2] at this
    exact this.symm

/-- The bytes outside the stored ones are as before. -/
theorem State.byteAt_appendCode (s : State) (n v a : Nat)
    (h : a < s.wbit.toNat / 8 ∨ ceilDiv8 (s.wbit.toNat + n) ≤ a) : (s.appendCode n v).byteAt a = s.byteAt a := by
  have hge : s.wbit.toNat / 8 ≤ ceilDiv8 (s.wbit.toNat + n) := by simp only [ceilDiv8]; omega
  have hbuf : (s.appendCode n v).buf = s.buf.storeView
      (clearPad (s.wbit.toNat + n) (bitWrite s.wbit.toNat n v s.bitAt)) (s.wbit.toNat / 8)
      (ceilDiv8 (s.wbit.toNat + n) - s.wbit.toNat / 8) := rfl
  unfold State.byteAt
  rw [hbuf, Memory.read?_storeView, State.appendCode_epoch, if_neg (by omega)]

end Sys2Proof.Machine
end

