-- ==== Sys2Proof/Laws/Exec.lean ====
section
/-! SUPPORT. STATUS at completion, and what a command can do, said once: it raises an error, or it responds from a state that
only its own writes changed, or (UNPACK and UNPACKDQ past BUF) it faults. -/

namespace Sys2Proof.Machine

/-! ### STATUS (R24, R25) -/

@[simp] theorem lastErr_setLastErr (c : BitVec 3) (st : BitVec 8) : lastErr (setLastErr c st) = c := by
  revert c st; decide

@[simp] theorem stickyBits_setLastErr (c : BitVec 3) (st : BitVec 8) :
    stickyBits (setLastErr c st) = stickyBits st := by
  revert c st; decide

@[simp] theorem lastErr_setSticky (e : CmdError) (st : BitVec 8) :
    lastErr (setSticky (errorCode e) st) = lastErr st := by
  cases e <;> revert st <;> decide

/-- The error code of a completion: 0 on success. -/
theorem lastErr_statusOnComplete (e : Option CmdError) (st : BitVec 8) :
    lastErr (statusOnComplete e st) = (e.map errorCode).getD 0#3 := by
  cases e <;> simp [statusOnComplete]

/-- Success leaves the sticky bits and clears LASTERR. -/
theorem statusOnComplete_none (st : BitVec 8) : statusOnComplete none st = stickyBits st ++ 0#3 := rfl

/-- An error sets its own sticky bit and no other. -/
theorem stickyBits_statusOnComplete_some (e : CmdError) (st : BitVec 8) :
    stickyBits (statusOnComplete (some e) st) = stickyBits st ||| (1#5 <<< ((errorCode e).toNat - 1)) := by
  cases e <;> revert st <;> decide

@[simp] theorem stickyBits_clearSticky (st : BitVec 8) : stickyBits (clearSticky st) = 0#5 := by
  revert st; decide

/-- ERRCLR leaves STATUS = 0 (R138). -/
theorem statusOnComplete_clearSticky (st : BitVec 8) : statusOnComplete none (clearSticky st) = 0#8 := by
  revert st; decide

theorem statusLegal_complete (s : State) (e : Option CmdError) : (s.complete e).statusLegal := by
  rw [State.statusLegal, State.complete_status]
  generalize s.status = st
  rcases e with _ | e
  · revert st; decide
  · cases e <;> revert st <;> decide

/-! ### The bits of CFG (R21) -/

@[simp] theorem depthField_cfgOf (d : BitVec 5) (r : BitVec 2) : depthField (cfgOf d r) = d := by
  revert d r; decide

@[simp] theorem rndField_cfgOf (d : BitVec 5) (r : BitVec 2) : rndField (cfgOf d r) = r := by
  revert d r; decide

/-! ### The outcomes of the shared operations -/

@[simp] theorem respond_eq (s : State) : respond s = .next (s.complete none) := rfl

@[simp] theorem raise_eq (e : CmdError) (s : State) : raise e s = .next (s.complete (some e)) := rfl

/-- The state UNPACK and UNPACKDQ complete from. -/
def State.afterRead (s : State) (v : Data) : State :=
  (s.withRbit (BitVec.ofNat 20 (s.rbit.toNat + s.depth))).withResult v

theorem unpackWith_cases (f : Nat → Data) (s : State) :
    (8 * s.len.toNat < s.rbit.toNat + s.depth ∧ unpackWith f s = raise .truncatedStream s) ∨
    (8 * s.bufBytes < s.rbit.toNat + s.depth ∧ s.rbit.toNat + s.depth ≤ 8 * s.len.toNat ∧
      unpackWith f s = .fault .outsideBuffer) ∨
    (s.rbit.toNat + s.depth ≤ 8 * s.bufBytes ∧ s.rbit.toNat + s.depth ≤ 8 * s.len.toNat ∧
      unpackWith f s = respond (s.afterRead (f (bitRead s.bitAt s.rbit.toNat s.depth)))) := by
  unfold unpackWith
  split
  · next h => exact .inl ⟨h, rfl⟩
  · next h =>
    split
    · next h' => exact .inr (.inl ⟨h', Nat.le_of_not_lt h, rfl⟩)
    · next h' => exact .inr (.inr ⟨Nat.le_of_not_lt h', Nat.le_of_not_lt h, rfl⟩)

/-- The state a command completes from when it succeeds: its own writes. -/
def effect (i : Instr) (s : State) : State :=
  match i with
  | .nop => s
  | .cfg d r => s.withCfg (cfgOf d r)
  | .quant x => s.withResult (zext24 (quantize (sampleValue x) s.depth s.rounding))
  | .dequant c => s.withResult (pat24 (dequantize (codeBits c s.depth) s.depth))
  | .pack c => s.appendCode s.depth (codeBits c s.depth)
  | .unpack => s.afterRead (zext24 (bitRead s.bitAt s.rbit.toNat s.depth))
  | .qpack x => (s.appendCode s.depth (quantize (sampleValue x) s.depth s.rounding)).withResult
      (zext24 (quantize (sampleValue x) s.depth s.rounding))
  | .unpackdq => s.afterRead (pat24 (dequantize (bitRead s.bitAt s.rbit.toNat s.depth) s.depth))
  | .pclr => (s.withWbit 0#20).withLen 0#17
  | .rclr => s.withRbit 0#20
  | .setlen v => s.withLen v
  | .wrbyte a d => s.storeByte a.toNat d
  | .rdbyte a => s.withResult (zext24 (s.byteAt a.toNat).toNat)
  | .rdreg r => s.withResult ((readReg s r).getD 0#24)
  | .errclr => s.withStatus (clearSticky s.status)

/-- When a command succeeds: the checks of its rule. -/
def accepts (i : Instr) (s : State) : Prop :=
  match i with
  | .cfg _ r => roundingLegal r = true
  | .quant _ => quantDepth s.depth
  | .dequant _ => quantDepth s.depth
  | .pack _ => packDepth s.depth ∧ s.wbit.toNat + s.depth ≤ 8 * s.bufBytes
  | .unpack => packDepth s.depth ∧ s.rbit.toNat + s.depth ≤ 8 * s.len.toNat ∧ s.rbit.toNat + s.depth ≤ 8 * s.bufBytes
  | .qpack _ => quantDepth s.depth ∧ s.wbit.toNat + s.depth ≤ 8 * s.bufBytes
  | .unpackdq =>
    quantDepth s.depth ∧ s.rbit.toNat + s.depth ≤ 8 * s.len.toNat ∧ s.rbit.toNat + s.depth ≤ 8 * s.bufBytes
  | .setlen v => v.toNat ≤ s.bufBytes
  | .wrbyte a _ => a.toNat < s.bufBytes
  | .rdbyte a => a.toNat < s.bufBytes
  | .rdreg r => registerLegal r = true
  | .nop => True
  | .pclr => True
  | .rclr => True
  | .errclr => True

theorem readReg_eq_none_iff (s : State) (r : BitVec 4) : readReg s r = none ↔ registerLegal r = false := by
  have h : ∀ n < 16, r.toNat = n → (readReg s r = none ↔ registerLegal r = false) := by
    intro n hn hr
    unfold readReg registerLegal
    rw [hr]
    interval_cases n <;> simp
  exact h _ r.isLt rfl

/-- A command whose checks hold completes with its own effect. -/
theorem exec_of_accepts {i : Instr} {s : State} (h : accepts i s) : exec i s = respond (effect i s) := by
  cases i <;> simp only [accepts] at h <;> simp only [exec, effect]
  case nop => rfl
  case cfg d r => simp [execCfg, h]
  case quant x => rw [execQuant, if_neg (not_not.2 h)]
  case dequant x => rw [execDequant, if_neg (not_not.2 h)]
  case pack c => rw [execPack, if_neg (not_not.2 h.1), if_neg (Nat.not_lt.2 h.2)]
  case unpack =>
    rw [execUnpack, if_neg (not_not.2 h.1), unpackWith, if_neg (Nat.not_lt.2 h.2.1), if_neg (Nat.not_lt.2 h.2.2)]
    rfl
  case qpack x => rw [execQpack, if_neg (not_not.2 h.1), if_neg (Nat.not_lt.2 h.2)]
  case unpackdq =>
    rw [execUnpackdq, if_neg (not_not.2 h.1), unpackWith, if_neg (Nat.not_lt.2 h.2.1), if_neg (Nat.not_lt.2 h.2.2)]
    rfl
  case pclr => rfl
  case rclr => rfl
  case setlen v => rw [execSetlen, if_neg (Nat.not_lt.2 h)]
  case wrbyte a d => rw [execWrbyte, if_neg (Nat.not_le.2 h)]
  case rdbyte a => rw [execRdbyte, if_neg (Nat.not_le.2 h)]
  case rdreg r =>
    unfold execRdreg
    cases hr : readReg s r with
    | none => simp [(readReg_eq_none_iff s r).1 hr] at h
    | some v => rfl
  case errclr => rfl

/-- What a command can do. -/
theorem exec_cases (i : Instr) (s : State) :
    (accepts i s ∧ exec i s = respond (effect i s)) ∨
    (¬ accepts i s ∧ ∃ e, exec i s = raise e s) ∨
    (¬ accepts i s ∧ s.bufBytes < s.len.toNat ∧ (i = .unpack ∨ i = .unpackdq) ∧ exec i s = .fault .outsideBuffer) := by
  by_cases h : accepts i s
  · exact .inl ⟨h, exec_of_accepts h⟩
  · refine .inr ?_
    cases i <;> simp only [accepts, not_true] at h <;> simp only [accepts, exec]
    case cfg d r => exact .inl ⟨h, .illegalCommand, by simp [execCfg, h]⟩
    case quant x => exact .inl ⟨h, .unsupportedDepth, by rw [execQuant, if_pos h]⟩
    case dequant x => exact .inl ⟨h, .unsupportedDepth, by rw [execDequant, if_pos h]⟩
    case pack c =>
      refine .inl ⟨h, ?_⟩
      by_cases hd : packDepth s.depth
      · exact ⟨.bufferOverflow, by rw [execPack, if_neg (not_not.2 hd), if_pos (by omega)]⟩
      · exact ⟨.unsupportedDepth, by rw [execPack, if_pos hd]⟩
    case unpack =>
      by_cases hd : packDepth s.depth
      · rw [execUnpack, if_neg (not_not.2 hd)]
        rcases unpackWith_cases zext24 s with ⟨_, h1⟩ | ⟨h0, h1, h2⟩ | ⟨h0, h1, _⟩
        · exact .inl ⟨h, _, h1⟩
        · exact .inr ⟨h, by omega, by simp, h2⟩
        · exact absurd ⟨hd, h1, h0⟩ h
      · exact .inl ⟨h, .unsupportedDepth, by rw [execUnpack, if_pos hd]⟩
    case qpack x =>
      refine .inl ⟨h, ?_⟩
      by_cases hd : quantDepth s.depth
      · exact ⟨.bufferOverflow, by rw [execQpack, if_neg (not_not.2 hd), if_pos (by omega)]⟩
      · exact ⟨.unsupportedDepth, by rw [execQpack, if_pos hd]⟩
    case unpackdq =>
      by_cases hd : quantDepth s.depth
      · rw [execUnpackdq, if_neg (not_not.2 hd)]
        rcases unpackWith_cases (fun c => pat24 (dequantize c s.depth)) s with ⟨_, h1⟩ | ⟨h0, h1, h2⟩ | ⟨h0, h1, _⟩
        · exact .inl ⟨h, _, h1⟩
        · exact .inr ⟨h, by omega, by simp, h2⟩
        · exact absurd ⟨hd, h1, h0⟩ h
      · exact .inl ⟨h, .unsupportedDepth, by rw [execUnpackdq, if_pos hd]⟩
    case setlen v => exact .inl ⟨h, .addressRange, by rw [execSetlen, if_pos (Nat.lt_of_not_le h)]⟩
    case wrbyte a d => exact .inl ⟨h, .addressRange, by rw [execWrbyte, if_pos (Nat.le_of_not_lt h)]⟩
    case rdbyte a => exact .inl ⟨h, .addressRange, by rw [execRdbyte, if_pos (Nat.le_of_not_lt h)]⟩
    case rdreg r =>
      refine .inl ⟨h, .illegalCommand, ?_⟩
      rw [execRdreg, (readReg_eq_none_iff s r).2 (by simpa using h)]

/-- A command that answers a next state answers one of its two completions. -/
theorem exec_next {i : Instr} {s t : State} (h : exec i s = .next t) :
    (accepts i s ∧ t = (effect i s).complete none) ∨ (¬ accepts i s ∧ ∃ e, t = s.complete (some e)) := by
  rcases exec_cases i s with ⟨ha, h1⟩ | ⟨ha, e, h1⟩ | ⟨_, _, _, h1⟩
  · rw [h1, respond_eq] at h
    exact .inl ⟨ha, (Host.Outcome.next.inj h).symm⟩
  · rw [h1, raise_eq] at h
    exact .inr ⟨ha, e, (Host.Outcome.next.inj h).symm⟩
  · rw [h1] at h
    cases h

/-! ### The step -/

theorem step_nil {s : State} (h : s.pending = []) : step s = .next s := by
  simp [step, interact, h]

theorem step_issue {s : State} {w : Word} {rest : List Interaction} (h : s.pending = .issue w :: rest) :
    step s = runWord w (s.withPending rest) := by
  simp [step, interact, h]

theorem step_reset {s : State} {rest : List Interaction} (h : s.pending = .reset :: rest) :
    step s = .next (s.withPending rest).takeReset := by
  simp [step, interact, h]

theorem runWord_ok {w : Word} {i : Instr} (h : decode w = .ok i) (s : State) : runWord w s = exec i s := by
  simp [runWord, h]

theorem runWord_error {w : Word} {r : Illegal} (h : decode w = .error r) (s : State) :
    runWord w s = raise .illegalCommand s := by
  simp [runWord, h]

end Sys2Proof.Machine
end

