-- ==== Sys2Proof/Laws/PerInstr.lean ====
section
/-! SUPPORT. Facts about every command as syntax, one lemma per constructor: its word lies in the row of the opcode table that
R71 gives it (spec/30_encoding.md R72). -/

namespace Sys2Proof.Laws.RowMatch

/-- The opcode R71 gives a command. -/
def opcodeOf : Instr → BitVec 4
  | .nop => 0x0#4
  | .cfg _ _ => 0x1#4
  | .quant _ => 0x2#4
  | .dequant _ => 0x3#4
  | .pack _ => 0x4#4
  | .unpack => 0x5#4
  | .qpack _ => 0x6#4
  | .unpackdq => 0x7#4
  | .pclr => 0x8#4
  | .rclr => 0x9#4
  | .setlen _ => 0xA#4
  | .wrbyte _ _ => 0xB#4
  | .rdbyte _ => 0xC#4
  | .rdreg _ => 0xD#4
  | .errclr => 0xE#4

/-- A well-formed command's word has its opcode, and agrees with MATCH where the MASK of that opcode's row is set. -/
def Statement (i : Instr) : Prop :=
  i.wf = true → opField (encode i) = opcodeOf i ∧
    ∃ row, opcodeRow (opcodeOf i) = some row ∧ encode i &&& row.mask = row.base

theorem nop : Statement .nop := fun _ => by decide
theorem unpack : Statement .unpack := fun _ => by decide
theorem unpackdq : Statement .unpackdq := fun _ => by decide
theorem pclr : Statement .pclr := fun _ => by decide
theorem rclr : Statement .rclr := fun _ => by decide
theorem errclr : Statement .errclr := fun _ => by decide

theorem cfg (depth : BitVec 5) (rnd : BitVec 2) : Statement (.cfg depth rnd) := by
  unfold Statement
  refine fun h => ⟨opField_wordOf _ _, _, rfl, ?_⟩
  revert depth rnd
  decide

theorem rdreg (reg : BitVec 4) : Statement (.rdreg reg) := by
  unfold Statement
  refine fun h => ⟨opField_wordOf _ _, _, rfl, ?_⟩
  revert reg
  decide

/-- Format K's mask covers OP and RSV alone. -/
theorem wordOf_and_high (op : BitVec 4) (imm : Imm) : wordOf op imm &&& 0xFF000000#32 = wordOf op 0#24 := by
  refine BitVec.eq_of_getLsbD_eq fun i hi => ?_
  simp only [wordOf, BitVec.getLsbD_and, BitVec.getLsbD_append]
  interval_cases i <;> simp

/-- Formats S and A: IMM[23:16] is covered too. -/
theorem wordOf_and_16 (op : BitVec 4) (x : BitVec 16) :
    wordOf op (0#8 ++ x) &&& 0xFFFF0000#32 = wordOf op 0#24 := by
  refine BitVec.eq_of_getLsbD_eq fun i hi => ?_
  simp only [wordOf, BitVec.getLsbD_and, BitVec.getLsbD_append]
  interval_cases i <;> simp

/-- Format L: IMM[23:17] is covered too. -/
theorem wordOf_and_17 (op : BitVec 4) (x : BitVec 17) :
    wordOf op (0#7 ++ x) &&& 0xFFFE0000#32 = wordOf op 0#24 := by
  refine BitVec.eq_of_getLsbD_eq fun i hi => ?_
  simp only [wordOf, BitVec.getLsbD_and, BitVec.getLsbD_append]
  interval_cases i <;> simp

theorem dequant (code : BitVec 24) : Statement (.dequant code) :=
  fun _ => ⟨opField_wordOf _ _, _, rfl, wordOf_and_high _ _⟩

theorem pack (code : BitVec 24) : Statement (.pack code) :=
  fun _ => ⟨opField_wordOf _ _, _, rfl, wordOf_and_high _ _⟩

theorem wrbyte (addr : BitVec 16) (data : BitVec 8) : Statement (.wrbyte addr data) :=
  fun _ => ⟨opField_wordOf _ _, _, rfl, wordOf_and_high _ _⟩

theorem quant (sample : BitVec 16) : Statement (.quant sample) :=
  fun _ => ⟨opField_wordOf _ _, _, rfl, wordOf_and_16 _ _⟩

theorem qpack (sample : BitVec 16) : Statement (.qpack sample) :=
  fun _ => ⟨opField_wordOf _ _, _, rfl, wordOf_and_16 _ _⟩

theorem rdbyte (addr : BitVec 16) : Statement (.rdbyte addr) :=
  fun _ => ⟨opField_wordOf _ _, _, rfl, wordOf_and_16 _ _⟩

theorem setlen (value : BitVec 17) : Statement (.setlen value) :=
  fun _ => ⟨opField_wordOf _ _, _, rfl, wordOf_and_17 _ _⟩

end Sys2Proof.Laws.RowMatch
end

