-- ==== Sys2Proof/Laws/Run.lean ====
section
/-! SUPPORT. Runs: the start of a run field by field, and a run taken apart into its steps. -/

namespace Sys2Proof.Machine

/-! ### The start of a run -/

section

variable (n epoch : Nat) (xs : List Interaction)

@[simp] theorem State.runStart_bufBytes : (State.runStart n epoch xs).bufBytes = n := rfl
@[simp] theorem State.runStart_cfg : (State.runStart n epoch xs).cfg = 16#7 := rfl
@[simp] theorem State.runStart_status : (State.runStart n epoch xs).status = 0#8 := rfl
@[simp] theorem State.runStart_wbit : (State.runStart n epoch xs).wbit = 0#20 := rfl
@[simp] theorem State.runStart_rbit : (State.runStart n epoch xs).rbit = 0#20 := rfl
@[simp] theorem State.runStart_len : (State.runStart n epoch xs).len = 0#17 := rfl
@[simp] theorem State.runStart_result : (State.runStart n epoch xs).result = 0#24 := rfl
@[simp] theorem State.runStart_buf : (State.runStart n epoch xs).buf = [] := rfl
@[simp] theorem State.runStart_epoch : (State.runStart n epoch xs).epoch = epoch := rfl
@[simp] theorem State.runStart_pending : (State.runStart n epoch xs).pending = xs := rfl
@[simp] theorem State.runStart_responses : (State.runStart n epoch xs).responses = [] := rfl

end

/-! ### The outcome -/

@[simp] theorem State.outcome_responses (s : State) : s.outcome.responses = s.responses := rfl
@[simp] theorem State.outcome_final (s : State) : s.outcome.final = s := rfl
@[simp] theorem State.outcome_stream (s : State) : s.outcome.stream = s.stream := rfl

@[simp] theorem State.stream_length (s : State) : s.stream.length = s.len.toNat := by simp [State.stream]

theorem State.stream_getElem (s : State) (a : Nat) (h : a < s.stream.length) : s.stream[a] = s.byteAt a := by
  simp [State.stream]

/-! ### Steps -/

@[simp] theorem runSteps_zero (s : State) : runSteps 0 s = .next s := rfl

theorem runSteps_succ {s t : State} (n : Nat) (h : step s = .next t) : runSteps (n + 1) s = runSteps n t := by
  simp [runSteps, h]

/-- A run of `m + n` steps is a run of `m` steps and then one of `n`. -/
theorem runSteps_add {s t : State} {m : Nat} (n : Nat) (h : runSteps m s = .next t) :
    runSteps (m + n) s = runSteps n t := by
  induction m generalizing s with
  | zero => cases h; rw [Nat.zero_add]
  | succ m ih =>
    rw [Nat.add_right_comm]
    cases hs : step s with
    | next u => rw [runSteps_succ _ hs] at h ⊢; exact ih h
    | fault r => simp [runSteps, hs] at h
    | refused r => simp [runSteps, hs] at h

/-- What every step keeps holds at the end of a run that has it at its start. -/
theorem runSteps_keeps {P : State → Prop} (keeps : ∀ s t, P s → step s = .next t → P t) {s t : State} {n : Nat}
    (hs : P s) (h : runSteps n s = .next t) : P t := by
  induction n generalizing s with
  | zero => cases h; exact hs
  | succ n ih =>
    cases hu : step s with
    | next u => exact ih (keeps s u hs hu) (by rwa [runSteps_succ _ hu] at h)
    | fault r => simp [runSteps, hu] at h
    | refused r => simp [runSteps, hu] at h

theorem runOutcome_next {n epoch : Nat} {xs : List Interaction} {t : State}
    (h : runSteps xs.length (State.runStart n epoch xs) = .next t) : runOutcome n epoch xs = .next t.outcome := by
  simp [runOutcome, h]

end Sys2Proof.Machine
end

