-- ==== Sys2Proof/Tests/Slice0.lean ====
section
/-! SUPPORT. Tests of one command or one interaction each, their expected values taken from the spec's examples and test
vectors (spec/95_test_vectors.md), and for every statement with hypotheses a witness that meets them. -/

open Sys2Proof Sys2Proof.Machine Sys2Proof.Claims

namespace Sys2Proof.Tests

/-- The reset state of a block with `n` bytes, with a CFG of its own. -/
def blank (n : Nat) (depth : BitVec 5) (rnd : BitVec 2) : State := { State.resetWith n 0 with cfg := cfgOf depth rnd }

/-- The same with cursors, LEN and written bytes. -/
def block (n : Nat) (depth : BitVec 5) (rnd : BitVec 2) (wbit rbit : BitVec 20) (len : BitVec 17) (buf : Memory) : State :=
  { blank n depth rnd with wbit := wbit, rbit := rbit, len := len, buf := buf }

/-- What `f` sees of the state after one command. -/
def after {α : Type} (i : Instr) (s : State) (f : State → α) : Option α :=
  match exec i s with
  | .next t => some (f t)
  | .fault _ => none
  | .refused _ => none

/-- What `f` sees of the state after one step. -/
def afterStep {α : Type} (s : State) (f : State → α) : Option α :=
  match step s with
  | .next t => some (f t)
  | .fault _ => none
  | .refused _ => none

/-- The state in which the host issues one word next. -/
def issuing (w : Word) (s : State) : State := { s with pending := [.issue w] }

/-! ### Well-formed terms (R72 items 4 and 5) -/

theorem test_cfg_rnd2_is_illformed : Instr.wf (.cfg 4#5 2#2) = false := by decide
theorem test_cfg_rnd3_is_illformed : Instr.wf (.cfg 4#5 3#2) = false := by decide
theorem test_rdreg8_is_illformed : Instr.wf (.rdreg 8#4) = false := by decide
theorem test_rdreg15_is_illformed : Instr.wf (.rdreg 15#4) = false := by decide
theorem test_cfg_nearest_is_wellformed : Instr.wf (.cfg 31#5 1#2) = true := by decide
theorem test_rdreg7_is_wellformed : Instr.wf (.rdreg 7#4) = true := by decide

/-! ### Decoding: words written out from the encodings of R80, R81, R109 to R112, R130 to R138 -/

theorem test_decode_nop : decode 0b00000000000000000000000000000000#32 = .ok .nop := by decide
-- 0001 0000 0000 0000 0000 0000 00rd dddd
theorem test_decode_cfg : decode 0b00010000000000000000000000110001#32 = .ok (.cfg 17#5 1#2) := by decide
-- 0010 0000 0000 0000 ssss ssss ssss ssss
theorem test_decode_quant : decode 0b00100000000000001000000000000001#32 = .ok (.quant 0x8001#16) := by decide
-- 0011 0000 kkkk kkkk kkkk kkkk kkkk kkkk
theorem test_decode_dequant : decode 0b00110000100000000000000000000001#32 = .ok (.dequant 0x800001#24) := by decide
-- 0100 0000 kkkk kkkk kkkk kkkk kkkk kkkk
theorem test_decode_pack : decode 0b01000000101010111100110111101111#32 = .ok (.pack 0xABCDEF#24) := by decide
theorem test_decode_unpack : decode 0b01010000000000000000000000000000#32 = .ok .unpack := by decide
theorem test_decode_qpack : decode 0b01100000000000001000000000000000#32 = .ok (.qpack 0x8000#16) := by decide
theorem test_decode_unpackdq : decode 0b01110000000000000000000000000000#32 = .ok .unpackdq := by decide
theorem test_decode_pclr : decode 0b10000000000000000000000000000000#32 = .ok .pclr := by decide
theorem test_decode_rclr : decode 0b10010000000000000000000000000000#32 = .ok .rclr := by decide
theorem test_decode_setlen : decode 0b10100000000000010000000000000001#32 = .ok (.setlen 0x10001#17) := by decide
-- 1011 0000 aaaa aaaa aaaa aaaa dddd dddd
theorem test_decode_wrbyte : decode 0b10110000100000000000000110001110#32 = .ok (.wrbyte 0x8001#16 0x8E#8) := by decide
theorem test_decode_rdbyte : decode 0b11000000000000001000000000000001#32 = .ok (.rdbyte 0x8001#16) := by decide
-- 1101 0000 0000 0000 0000 0000 0000 0rrr
theorem test_decode_rdreg : decode 0b11010000000000000000000000000100#32 = .ok (.rdreg 4#4) := by decide
theorem test_decode_errclr : decode 0b11100000000000000000000000000000#32 = .ok .errclr := by decide

theorem test_reject_opcode : decode 0xF0000000#32 = .error .reservedOpcode := by decide
theorem test_reject_rsv : decode 0x01000000#32 = .error .reservedField := by decide
theorem test_reject_nop_imm : decode 0x00000001#32 = .error .reservedImm := by decide
theorem test_reject_cfg_rnd2 : decode 0x10000040#32 = .error .reservedRounding := by decide
theorem test_reject_quant_imm16 : decode 0x20010000#32 = .error .reservedImm := by decide
theorem test_reject_setlen_imm17 : decode 0xA0020000#32 = .error .reservedImm := by decide
theorem test_reject_rdreg8 : decode 0xD0000008#32 = .error .reservedRegister := by decide
theorem test_reject_errclr_imm : decode 0xE0000001#32 = .error .reservedImm := by decide

-- The host's numbering (spec/opcode_table.json).
theorem test_table_word : decodeTableWord 32 0xD0000004 = some (.rdreg 4#4) := by decide
theorem test_table_word_rejects : decodeTableWord 32 0xF0000000 = none := by decide

/-! ### The assembler (R76, R77; spec/95_test_vectors.md P1, P3, P4) -/

theorem test_asm_lower_case_hex : assembleWords 16 "qpack 0x1234" = .ok [0x60001234#32] := by decide
theorem test_asm_negative : assembleWords 16 "QPACK -2" = .ok [0x6000FFFE#32] := by decide
theorem test_asm_ldstream :
    assembleWords 16 "LDSTREAM 0xA5, 0x3C" =
      .ok [0xB00000A5#32, 0xB000013C#32, 0xA0000002#32, 0x90000000#32] := by decide
theorem test_asm_sclr : assembleWords 16 "SCLR" = .ok [0x80000000#32, 0x90000000#32] := by decide
theorem test_asm_range : assembleWords 16 "QUANT 32768" = .error .outOfRange := by decide
theorem test_asm_depth_range : assembleWords 16 "CFG 32, FLOOR" = .error .outOfRange := by decide

/-! ### Reset, the host's interactions (R180 to R182, R188) -/

theorem test_reset_memory_canonical : State.reset.buf.wf := by decide
theorem test_reset_cfg : State.reset.cfg = 0x10#7 := by decide
-- V-C1: BYTEWIDTH and CAP after reset.
theorem test_reset_bytewidth : after (.rdreg 6#4) State.reset (·.result) = some 2#24 := by decide
theorem test_reset_cap : after (.rdreg 7#4) State.reset (·.result) = some 16#24 := by decide
-- R181: a reset gives no response and leaves R180's values.
theorem test_reset_event :
    afterStep { block 4 8#5 1#2 8#20 8#20 1#17 [(0, 7#8)] with pending := [.reset] }
      (fun t => (t.cfg, t.wbit, t.buf, t.responses)) = some (16#7, 0#20, [], []) := by decide
-- R182: a byte nothing has written reads as its draw.
theorem test_unwritten_byte :
    after (.rdbyte 3#16) State.reset (·.result) = some (zext24 (Config.unwrittenByte 0 3).toNat) := rfl
theorem test_fetch_word :
    afterStep (State.reset.withFetchWord 32 0x10000024) (·.cfg) = some 0x24#7 := by decide
-- With nothing issued a step changes nothing (log 1).
theorem test_idle_step : step State.reset = .next State.reset := rfl

-- R189: an illegal word, the reset event, and UNPACK of the empty stream, which ends with TruncatedStream (V-C5).
theorem test_run_outcome :
    (match runOutcome 16 0 [.issue 0xF0000000#32, .reset, .issue 0x50000000#32] with
      | .next o => some (o.responses, o.final.status, o.stream)
      | .fault _ => none
      | .refused _ => none) = some ([0x05000000#32, 0x02000000#32], 0x12#8, []) := by decide

/-! ### BUF as a list -/

theorem test_write_keeps_order : Memory.write [(1, 10#8), (5, 50#8)] 3 30#8 = [(1, 10#8), (3, 30#8), (5, 50#8)] := by decide
theorem test_write_replaces : Memory.write [(1, 10#8), (5, 50#8)] 5 51#8 = [(1, 10#8), (5, 51#8)] := by decide

/-! ### BitPacker (spec/95_test_vectors.md 2.1) -/

-- V-P2: a 24-bit code over four bytes.
theorem test_pack_unaligned :
    after (.pack 0xABCDEF#24) (block 16 24#5 0#2 4#20 0#20 1#17 [(0, 0x01#8)]) (fun t => (t.buf, t.wbit, t.len, t.status)) =
      some ([(0, 0xF1#8), (1, 0xDE#8), (2, 0xBC#8), (3, 0x0A#8)], 28#20, 4#17, 0#8) := by decide
-- V-P3: padding is cleared over host-written data; LEN falls to ceil(E / 8).
theorem test_pack_clears_padding :
    after (.pack 1#24) (block 16 2#5 0#2 0#20 0#20 9#17 [(0, 0xFF#8), (1, 0xAA#8)]) (fun t => (t.buf, t.wbit, t.len)) =
      some ([(0, 0x01#8), (1, 0xAA#8)], 2#20, 1#17) := by decide
-- P3: a code across a byte boundary.
theorem test_unpack_straddles :
    after .unpack (block 16 3#5 0#2 0#20 6#20 2#17 [(0, 0xA5#8), (1, 0x3C#8)]) (fun t => (t.result, t.rbit, t.status)) =
      some (2#24, 9#20, 0#8) := by decide
-- V-P5: one code past LEN.
theorem test_unpack_truncated :
    after .unpack (block 16 8#5 0#2 16#20 8#20 1#17 [(0, 1#8), (1, 2#8)]) (fun t => (t.rbit, t.status, t.responses)) =
      some (8#20, 0x12#8, [0x02000000#32]) := by decide

/-! ### Quantizer (spec/95_test_vectors.md 2.2) -/

theorem test_quant_floor : after (.quant 0#16) (blank 16 4#5 0#2) (·.result) = some 7#24 := by decide
theorem test_quant_nearest : after (.quant 0#16) (blank 16 4#5 1#2) (·.result) = some 8#24 := by decide
-- V-Q5.
theorem test_dequant_depth8 : after (.dequant 0x18#24) (blank 16 8#5 0#2) (·.result) = some 0xFF9818#24 := by decide
theorem test_dequant_depth4 : after (.dequant 0x18#24) (blank 16 4#5 0#2) (·.result) = some 0x000889#24 := by decide
-- P2, line 6.
theorem test_qpack_high_nibble :
    after (.qpack 0#16) (block 16 4#5 1#2 12#20 0#20 2#17 [(0, 0x07#8), (1, 0x0E#8)])
      (fun t => (t.buf, t.wbit, t.len, t.result)) = some ([(0, 0x07#8), (1, 0x8E#8)], 16#20, 2#17, 8#24) := by decide
-- V-Q6.
theorem test_qpack_overflow :
    after (.qpack 200#16) { block 1 8#5 0#2 8#20 0#20 1#17 [(0, 0x7F#8)] with result := 0x7F#24 }
      (fun t => (t.status, t.responses, t.buf)) = some (0x23#8, [0x0300007F#32], [(0, 0x7F#8)]) := by decide
-- R112's example.
theorem test_unpackdq : after .unpackdq (block 16 4#5 0#2 4#20 0#20 1#17 [(0, 0x07#8)])
    (fun t => (t.result, t.rbit)) = some (0xFFF777#24, 4#20) := by decide
theorem test_unpackdq_padding : after .unpackdq (block 16 4#5 0#2 4#20 4#20 1#17 [(0, 0x07#8)])
    (fun t => (t.result, t.rbit)) = some (0xFF8000#24, 8#20) := by decide

/-! ### Control (spec/95_test_vectors.md 2.3, spec/42_control.md) -/

theorem test_nop_keeps_sticky : after .nop { blank 16 16#5 0#2 with status := 0x12#8 } (·.status) = some 0x10#8 := by decide
theorem test_cfg_stores_any_depth : after (.cfg 31#5 1#2) State.reset (·.cfg) = some 0x3F#7 := by decide
theorem test_pclr : after .pclr (block 16 2#5 0#2 6#20 2#20 1#17 [(0, 0x39#8)]) (fun t => (t.wbit, t.len, t.rbit, t.buf)) =
    some (0#20, 0#17, 2#20, [(0, 0x39#8)]) := by decide
theorem test_rclr : after .rclr (block 16 2#5 0#2 8#20 8#20 1#17 []) (fun t => (t.rbit, t.wbit)) = some (0#20, 8#20) := by decide
theorem test_setlen_full : after (.setlen 4#17) (blank 4 8#5 0#2) (fun t => (t.len, t.status)) = some (4#17, 0#8) := by decide
theorem test_setlen_above : after (.setlen 5#17) (blank 4 8#5 0#2) (fun t => (t.len, t.status)) = some (0#17, 0x44#8) := by decide
theorem test_wrbyte_last : after (.wrbyte 3#16 7#8) (blank 4 8#5 0#2) (fun t => (t.buf, t.len)) = some ([(3, 7#8)], 0#17) := by decide
theorem test_wrbyte_above : after (.wrbyte 16#16 0#8) (blank 16 8#5 0#2) (fun t => (t.buf, t.status)) = some ([], 0x44#8) := by decide
theorem test_rdbyte_beyond_len : after (.rdbyte 1#16) (block 4 8#5 0#2 0#20 0#20 0#17 [(1, 0x8E#8)]) (·.result) = some 0x8E#24 := by decide
theorem test_rdbyte_above : after (.rdbyte 4#16) (blank 4 8#5 0#2) (·.responses) = some [0x04000000#32] := by decide
-- V-C4: STATUS as it was, then LASTERR 0.
theorem test_rdreg_status : after (.rdreg 1#4) { blank 16 16#5 0#2 with status := 0x85#8 } (fun t => (t.result, t.status)) =
    some (0x85#24, 0x80#8) := by decide
-- V-C2.
theorem test_rdreg_bytewidth : after (.rdreg 6#4) (blank 16 31#5 0#2) (·.result) = some 4#24 := by decide
theorem test_errclr : after .errclr { blank 16 16#5 0#2 with status := 0x12#8 } (·.status) = some 0#8 := by decide
-- R138: an ERRCLR word with a nonzero IMM clears nothing and sets S_ILL.
theorem test_errclr_illegal : afterStep (issuing 0xE0000001#32 { blank 16 16#5 0#2 with status := 0x12#8 })
    (fun t => (t.status, t.responses)) = some (0x95#8, [0x05000000#32]) := by decide
-- V-P8: UnsupportedDepth before TruncatedStream.
theorem test_priority : afterStep (issuing 0x50000000#32 (blank 16 0#5 0#2)) (·.status) = some 0x09#8 := by decide

/-! ### Witnesses: for each statement, a state and operands that meet its hypotheses, each clause at a boundary -/

/-- Codes 1, 2, 3 packed at depth 2 (R80's example), one of them read. -/
def packed : State := block 16 2#5 0#2 6#20 2#20 1#17 [(0, 0x39#8)]

/-- A block of one byte, full. -/
def full : State := block 1 8#5 1#2 8#20 0#20 1#17 [(0, 0x7F#8)]

theorem packed_inv : packed.Inv :=
  ⟨by decide, by decide, by decide, by decide, by decide, by decide⟩

theorem full_inv : full.Inv :=
  ⟨by decide, by decide, by decide, by decide, by decide, by decide⟩

-- Encoding.
theorem witness_DecodeOfEncodeGivesTheCommand :
    Instr.wf (.cfg 31#5 1#2) = true ∧ Instr.wf (.rdreg 7#4) = true ∧ Instr.wf (.setlen 0x1FFFF#17) = true := by decide
theorem witness_EncodeOfDecodeGivesTheWord :
    decode 0xD0000007#32 = .ok (.rdreg 7#4) ∧ decode 0x1000003F#32 = .ok (.cfg 31#5 1#2) := by decide
theorem illegal_of_error {w : Word} {r : Illegal} (h : decode w = .error r) : ¬ ∃ i, decode w = .ok i := by simp [h]
theorem witness_LegalWordsAreThoseOfTheTable :
    (¬ ∃ i, decode 0x10000040#32 = .ok i) ∧ (issuing 0x10000040#32 packed).pending = .issue 0x10000040#32 :: [] :=
  ⟨illegal_of_error (r := .reservedRounding) (by decide), rfl⟩
theorem witness_OpcodeRowsAreDisjoint :
    ∃ rj rk, opcodeTable[1]? = some rj ∧ opcodeTable[1]? = some rk ∧ 0x1000003F#32 &&& rj.mask = rj.base ∧
      0x1000003F#32 &&& rk.mask = rk.base := ⟨_, _, rfl, rfl, by decide, by decide⟩

-- Interactions.
theorem witness_StepRunsTheDecodedCommand :
    (issuing 0x40000003#32 packed).pending = .issue 0x40000003#32 :: [] ∧ decode 0x40000003#32 = .ok (.pack 3#24) :=
  ⟨rfl, by decide⟩
theorem witness_IllegalWordsEndWithIllegalCommand :
    (issuing 0xF0000000#32 packed).pending = .issue 0xF0000000#32 :: [] ∧ opField 0xF0000000#32 = 0xF#4 ∧
      rsvField 0x01000000#32 ≠ 0#4 ∧
      immField 0xA0020000#32 &&& reservedImm (opField 0xA0020000#32) ≠ 0#24 ∧
      (opField 0x10000040#32 = 0x1#4 ∧ 2 ≤ ((0x10000040#32).extractLsb' 5 2).toNat) ∧
      (opField 0xD0000008#32 = 0xD#4 ∧ 8 ≤ ((0xD0000008#32).extractLsb' 0 4).toNat) := by decide
theorem witness_HostResetLeavesTheResetState :
    ({ packed with pending := [.reset, .issue 0#32] } : State).pending = .reset :: [.issue 0#32] := rfl
theorem witness_ResetStateValues : (65536 : Nat) ≤ 65536 ∧ State.resetWith 65536 3 = State.resetWith 65536 3 :=
  ⟨Nat.le_refl _, rfl⟩

-- Control.
theorem witness_CfgWritesDepthAndRounding : (1#2).toNat < 2 ∧ 2 ≤ (2#2).toNat := by decide
theorem witness_SetlenWritesLen : (16#17).toNat ≤ packed.bufBytes ∧ packed.bufBytes < (17#17).toNat := by decide
theorem witness_WrbyteWritesOneByte : (15#16).toNat < packed.bufBytes ∧ packed.bufBytes ≤ (16#16).toNat := by decide
theorem witness_RdbyteReadsOneByte : (15#16).toNat < packed.bufBytes ∧ packed.bufBytes ≤ (16#16).toNat := by decide
theorem witness_RdregReadsTheRegisterTable : 8 ≤ (8#4).toNat := by decide
theorem witness_BytewidthFollowsDepth :
    (blank 1 0#5 0#2).depth = 0 ∧ (blank 1 1#5 0#2).depth = 1 ∧ (blank 1 8#5 0#2).depth = 8 ∧
      (blank 1 9#5 0#2).depth = 9 ∧ (blank 1 16#5 0#2).depth = 16 ∧ (blank 1 17#5 0#2).depth = 17 ∧
      (blank 1 24#5 0#2).depth = 24 ∧ (blank 1 25#5 0#2).depth = 25 := by decide

-- BitPacker: an exact fill, and the last code of a stream.
theorem witness_PackAppendsTheCodeBits :
    (blank 3 24#5 0#2).bufBytes ≤ 65536 ∧ 1 ≤ (blank 3 24#5 0#2).depth ∧ (blank 3 24#5 0#2).depth ≤ 24 ∧
      (blank 3 24#5 0#2).wbit.toNat + (blank 3 24#5 0#2).depth ≤ 8 * (blank 3 24#5 0#2).bufBytes := by decide
theorem witness_UnpackReadsTheNextCode :
    full.bufBytes ≤ 65536 ∧ full.len.toNat ≤ full.bufBytes ∧ 1 ≤ full.depth ∧ full.depth ≤ 24 ∧
      full.rbit.toNat + full.depth ≤ 8 * full.len.toNat := by decide
theorem witness_BitReadIsTheSumOfItsBits : 1 ≤ 8 ∧ 8 ≤ 24 ∧ 0 + 8 ≤ 8 * full.bufBytes := by decide
theorem witness_PaddingBitsAreZero :
    packed.bufBytes ≤ 65536 ∧ (∃ code, Instr.pack 0x1#24 = .pack code) ∧
      (∃ t, exec (.pack 0x1#24) { packed with cfg := 1#7 } = .next t ∧ lastErr t.status = 0#3 ∧ t.wbit.toNat ≤ 7 ∧
        7 < 8 * ((t.wbit.toNat + 7) / 8)) := ⟨by decide, ⟨_, rfl⟩, _, rfl, by decide, by decide, by decide⟩
theorem witness_PaddingBitsAreZero_qpack :
    (∃ sample, Instr.qpack 5#16 = .qpack sample) ∧
      ∃ t, exec (.qpack 5#16) { packed with cfg := 1#7 } = .next t ∧ lastErr t.status = 0#3 :=
  ⟨⟨_, rfl⟩, _, rfl, by decide⟩
theorem witness_UnpackReturnsThePackedCodes :
    full.bufBytes ≤ 65536 ∧ 1 ≤ (4#5).toNat ∧ (4#5).toNat ≤ 24 ∧ (∀ c ∈ [15#24, 0#24], c.toNat < 2 ^ (4#5).toNat) ∧
      [15#24, 0#24].length * (4#5).toNat ≤ 8 * full.bufBytes :=
  ⟨by decide, by decide, by decide, by simp, by decide⟩
theorem witness_PackingKeepsTheLengthInvariant :
    [Instr.pack 0x1FF#24, .qpack 0#16].map (packedCode (blank 2 8#5 0#2).depth (blank 2 8#5 0#2).rounding) =
      [255, 127].map some ∧ [255, 127].length * (blank 2 8#5 0#2).depth ≤ 8 * (blank 2 8#5 0#2).bufBytes := by decide
theorem witness_AvailableCodesOfAStream :
    packed.bufBytes ≤ 65536 ∧ packed.len.toNat ≤ packed.bufBytes ∧ 1 ≤ packed.depth ∧ packed.depth ≤ 24 ∧
      ({ packed with rbit := 0#20 } : State).rbit = 0#20 ∧ 4 ≤ 8 * packed.len.toNat / packed.depth := by decide
theorem packed_holds : HoldsPacked { packed with rbit := 6#20 } 2 [1, 2, 3] :=
  ⟨by decide, by decide, fun g h1 h2 => by
    have h3 : g < 8 := h2
    have h4 : 6 ≤ g := h1
    interval_cases g <;> decide⟩
theorem witness_AvailableCodesOfAStream_padding :
    [1, 2, 3].length ≤ 3 ∧ ({ packed with rbit := 6#20 } : State).rbit.toNat = 3 * packed.depth ∧
      (3 + 1) * packed.depth ≤ 8 * packed.len.toNat := by decide
theorem witness_DepthFourNibbleOrder :
    (blank 2 4#5 0#2).bufBytes ≤ 65536 ∧ [0xA#24, 0x5#24, 0xF#24, 0x0#24].length * 4 ≤ 8 * (blank 2 4#5 0#2).bufBytes ∧
      2 * 1 + 1 < [0xA#24, 0x5#24, 0xF#24, 0x0#24].length := by decide
theorem witness_WholeBytesAreLittleEndian :
    (blank 3 24#5 0#2).depth = 24 ∧ (blank 3 24#5 0#2).wbit.toNat % 8 = 0 ∧
      (blank 3 24#5 0#2).wbit.toNat + (blank 3 24#5 0#2).depth ≤ 8 * (blank 3 24#5 0#2).bufBytes ∧
      2 < (blank 3 24#5 0#2).depth / 8 ∧ (blank 3 8#5 0#2).depth = 8 ∧ (blank 3 16#5 0#2).depth = 16 := by decide
/-- `packed` with one more byte above LEN, and another draw. -/
def packedBeyond : State := { packed with buf := [(0, 0x39#8), (1, 0xFF#8)], epoch := 1 }
theorem witness_UnpackIgnoresBytesBeyondLen :
    packedBeyond = { packed with buf := packedBeyond.buf, epoch := packedBeyond.epoch } ∧
      (∀ a < packed.len.toNat, packedBeyond.byteAt a = packed.byteAt a) ∧ (∃ t, exec .unpack packed = .next t) ∧
      ∃ t, exec .unpackdq packed = .next t := ⟨rfl, by decide, ⟨_, rfl⟩, _, rfl⟩

-- Quantizer.
theorem witness_QuantFloorIsTheSourceFormula :
    roundingDepth (blank 1 1#5 0#2).depth ∧ roundingDepth (blank 1 8#5 0#2).depth ∧
      rndField (blank 1 8#5 0#2).cfg = 0#2 := by decide
theorem witness_QuantNearestRoundsTiesUp :
    roundingDepth (blank 1 1#5 1#2).depth ∧ roundingDepth (blank 1 8#5 1#2).depth ∧
      rndField (blank 1 8#5 1#2).cfg = 1#2 := by decide
theorem witness_QuantPassThroughAndWidening : (blank 1 16#5 1#2).depth = 16 ∧ (blank 1 24#5 0#2).depth = 24 := by decide
theorem witness_DequantIsTheSourceFormula :
    roundingDepth (blank 1 1#5 0#2).depth ∧ roundingDepth (blank 1 2#5 0#2).depth ∧
      roundingDepth (blank 1 4#5 0#2).depth ∧ roundingDepth (blank 1 8#5 0#2).depth := by decide
theorem witness_DequantOfWideCodes : (blank 1 16#5 1#2).depth = 16 ∧ (blank 1 24#5 0#2).depth = 24 := by decide
theorem witness_QpackIsQuantThenPack :
    quantDepth (blank 1 8#5 0#2).depth ∧ (blank 1 8#5 0#2).wbit.toNat + (blank 1 8#5 0#2).depth ≤ 8 * (blank 1 8#5 0#2).bufBytes ∧
      quantDepth full.depth ∧ 8 * full.bufBytes < full.wbit.toNat + full.depth := by decide
theorem witness_UnpackdqIsUnpackThenDequant :
    quantDepth full.depth ∧ full.len.toNat ≤ full.bufBytes ∧ full.rbit.toNat + full.depth ≤ 8 * full.len.toNat := by decide
theorem witness_QuantizerRanges :
    roundingDepth 1 ∧ roundingDepth 8 ∧ isSample (-32768) ∧ isSample 32767 ∧ 254 ≤ 2 ^ 8 - 2 ∧ 255 ≤ 2 ^ 8 - 1 ∧
      quantize 32767 24 .nearest = quantize 32767 24 .nearest := by decide
theorem witness_QuantizerIsMonotone :
    roundingDepth 4 ∧ isSample (-32768) ∧ isSample 32767 ∧ (-32768 : Int) ≤ 32767 ∧ 0 ≤ 15 ∧ 15 ≤ 2 ^ 4 - 1 := by decide
theorem witness_RoundTripErrorBounds :
    (1, Rounding.floor, 65535) ∈ [(1, Rounding.floor, 65535), (1, .nearest, 32767), (2, .floor, 21845),
      (2, .nearest, 10923), (4, .floor, 4369), (4, .nearest, 2185), (8, .floor, 257), (8, .nearest, 129),
      (16, .floor, 0), (16, .nearest, 0), (24, .floor, 0), (24, .nearest, 0)] ∧ isSample (-32768) ∧ isSample 32767 := by
  decide
theorem witness_ExactRoundTripAtWideDepths : (blank 1 16#5 1#2).depth = 16 ∧ (blank 1 24#5 0#2).depth = 24 := by decide
theorem witness_DequantHasNoTies : roundingDepth 8 ∧ 255 ≤ 2 ^ 8 - 1 := by decide
theorem witness_DequantHasNoTies_nearest : |normalizedSample 0 8 - ((-32768 : Int) : ℚ)| ≤ 1 / 2 := by
  norm_num [normalizedSample]

-- Errors.
theorem witness_UnsupportedDepthIsRaised :
    ¬ (1 ≤ (blank 1 0#5 0#2).depth ∧ (blank 1 0#5 0#2).depth ≤ 24) ∧
      ¬ (1 ≤ (blank 1 25#5 0#2).depth ∧ (blank 1 25#5 0#2).depth ≤ 24) ∧
      (blank 1 3#5 0#2).depth ∉ [1, 2, 4, 8, 16, 24] ∧ (blank 1 3#5 0#2).depth = 3 ∧
      (blank 1 3#5 0#2).wbit.toNat + 3 ≤ 8 * (blank 1 3#5 0#2).bufBytes := by decide
theorem witness_TruncatedStreamIsRaised :
    8 * (blank 1 1#5 0#2).len.toNat < (blank 1 1#5 0#2).rbit.toNat + (blank 1 1#5 0#2).depth ∧
      (1 ≤ (blank 1 1#5 0#2).depth ∧ (blank 1 1#5 0#2).depth ≤ 24) ∧
      (blank 1 1#5 0#2).depth ∈ [1, 2, 4, 8, 16, 24] := by decide
theorem witness_BufferOverflowIsRaised :
    8 * full.bufBytes < full.wbit.toNat + full.depth ∧ (1 ≤ full.depth ∧ full.depth ≤ 24) ∧
      full.depth ∈ [1, 2, 4, 8, 16, 24] := by decide
theorem witness_AddressRangeIsRaised : full.bufBytes ≤ (1#16).toNat ∧ full.bufBytes < (2#17).toNat := by decide
theorem witness_ErrorsChangeOnlyStatus :
    ∃ t, runWord 0x40000001#32 full = .next t ∧ lastErr t.status ≠ 0#3 := ⟨_, rfl, by decide⟩
theorem witness_ErrorPriority :
    decode 0xF0000000#32 = .error .reservedOpcode ∧ decode 0x50000000#32 = .ok .unpack ∧
      decode 0x40000001#32 = .ok (.pack 1#24) ∧ ¬ (1 ≤ (blank 1 0#5 0#2).depth ∧ (blank 1 0#5 0#2).depth ≤ 24) ∧
      decode 0x70000000#32 = .ok .unpackdq ∧ decode 0x60000000#32 = .ok (.qpack 0#16) ∧
      decode 0x20000000#32 = .ok (.quant 0#16) ∧ decode 0x30000000#32 = .ok (.dequant 0#24) ∧
      (blank 1 3#5 0#2).depth ∉ [1, 2, 4, 8, 16, 24] ∧ (blank 1 0#5 0#2).depth = 0 ∧ (blank 1 0#5 0#2).len = 0#17 := by
  decide
theorem witness_ErrorPriority_ranges :
    (1 ≤ (blank 1 1#5 0#2).depth ∧ (blank 1 1#5 0#2).depth ≤ 24) ∧ (blank 1 1#5 0#2).depth ∈ [1, 2, 4, 8, 16, 24] ∧
      8 * (blank 1 1#5 0#2).len.toNat < (blank 1 1#5 0#2).rbit.toNat + (blank 1 1#5 0#2).depth ∧
      full.depth ∈ [1, 2, 4, 8, 16, 24] ∧ 8 * full.bufBytes < full.wbit.toNat + full.depth ∧
      decode 0xB0000100#32 = .ok (.wrbyte 1#16 0#8) ∧ decode 0xC0000001#32 = .ok (.rdbyte 1#16) ∧
      decode 0xA0000002#32 = .ok (.setlen 2#17) ∧ full.bufBytes ≤ (1#16).toNat ∧ full.bufBytes < (2#17).toNat := by
  decide
theorem witness_StatusUpdateAtCompletion :
    (∃ t, runWord 0xE0000000#32 full = .next t) ∧ decode 0xE0000000#32 = .ok .errclr ∧
      (∃ t, runWord 0x40000001#32 full = .next t) ∧ decode 0x40000001#32 ≠ .ok .errclr := ⟨⟨_, rfl⟩, by decide, ⟨_, rfl⟩, by decide⟩
theorem witness_StickyBitsStayUntilErrclrOrReset :
    ∃ t, step (issuing 0#32 { full with status := 0x80#8 }) = .next t ∧
      (stickyBits (issuing 0#32 { full with status := 0x80#8 }).status).getLsbD 4 = true := ⟨_, rfl, by decide⟩
theorem witness_EveryCommandGivesOneResponse : ∃ t, runWord 0xF0000000#32 full = .next t := ⟨_, rfl⟩
theorem witness_OnlyNamedCommandsWriteARegister :
    (∃ t, exec (.cfg 1#5 0#2) packed = .next t ∧ t.cfg ≠ packed.cfg) ∧
      (∃ t, exec (.pack 3#24) packed = .next t ∧ t.wbit ≠ packed.wbit ∧ t.buf ≠ packed.buf) ∧
      (∃ t, exec .unpack packed = .next t ∧ t.rbit ≠ packed.rbit ∧ t.result ≠ packed.result) ∧
      ∃ t, exec (.setlen 16#17) packed = .next t ∧ t.len ≠ packed.len :=
  ⟨⟨_, rfl, by decide⟩, ⟨_, rfl, by decide, by decide⟩, ⟨_, rfl, by decide, by decide⟩, _, rfl, by decide⟩

-- Whole machine.
theorem witness_InvariantHoldsAtReset : 1 ≤ 1 ∧ 1 ≤ 65536 ∧ 65536 ≤ 65536 := by decide
theorem witness_StepKeepsTheInvariant :
    (issuing 0x40000003#32 packed).Inv ∧ ∃ t, step (issuing 0x40000003#32 packed) = .next t :=
  ⟨⟨by decide, by decide, by decide, by decide, by decide, by decide⟩, _, rfl⟩
theorem witness_EveryCommandCompletes : full.Inv := full_inv
theorem witness_NoStepStops : packed.Inv := packed_inv
theorem witness_UnpackPastTheBufferFaults :
    8 * (block 1 8#5 0#2 0#20 1#20 2#17 []).bufBytes < (block 1 8#5 0#2 0#20 1#20 2#17 []).rbit.toNat + 8 ∧
      (block 1 8#5 0#2 0#20 1#20 2#17 []).rbit.toNat + 8 ≤ 8 * (block 1 8#5 0#2 0#20 1#20 2#17 []).len.toNat ∧
      (block 1 8#5 0#2 0#20 1#20 2#17 []).depth = 8 := by decide
theorem witness_PackingDoesNotReadUnwrittenBytes :
    packed.Inv ∧ (∃ code, Instr.pack 3#24 = .pack code) ∧ (∃ t, exec (.pack 3#24) packed = .next t) ∧
      (∃ sample, Instr.qpack 3#16 = .qpack sample) ∧ ∃ t, exec (.qpack 3#16) packed = .next t :=
  ⟨packed_inv, ⟨_, rfl⟩, ⟨_, rfl⟩, ⟨_, rfl⟩, _, rfl⟩
theorem witness_UnwrittenBytesKeepTheirDraw :
    ∃ t, exec (.pack 3#24) packed = .next t ∧ t.buf.read? (15#16).toNat = none ∧ (15#16).toNat < packed.bufBytes :=
  ⟨_, rfl, by decide, by decide⟩
theorem witness_LdstreamLoadsTheStream : full.bufBytes ≤ 65536 ∧ [0xA5#8].length ≤ full.bufBytes := by decide
theorem witness_EveryRunHasAnOutcome : isRun [.reset, .issue 0#32] ∧ 1 ≤ 1 ∧ 65536 ≤ 65536 := ⟨by simp [isRun], by decide⟩
theorem witness_ResetStartsTheRunAgain : isRun ([.issue 0#32] ++ .reset :: [.issue 0#32]) ∧ 1 ≤ 1 ∧ 65536 ≤ 65536 :=
  ⟨by simp [isRun], by decide⟩

end Sys2Proof.Tests
end

section
/-! SUPPORT. The update of STATUS when a command word completes (spec/10_state.md R25): the codes of the errors, the STATUS
a command's own writes leave, and the two ways a word that completes can leave STATUS. -/

open Sys2Proof Sys2Proof.Machine

namespace Sys2Proof.Claims

/-! ### The codes (R161) -/

theorem errorCode_toNat_bounds (e : CmdError) : 1 ≤ (errorCode e).toNat ∧ (errorCode e).toNat ≤ 5 := by
  cases e <;> decide

theorem lastErr_statusOnComplete_le (e : Option CmdError) (st : BitVec 8) :
    (lastErr (statusOnComplete e st)).toNat ≤ 5 := by
  rw [lastErr_statusOnComplete]
  cases e with
  | none => decide
  | some e => exact (errorCode_toNat_bounds e).2

/-! ### The sticky bits (R25) -/

theorem stickyBits_statusOnComplete_none (st : BitVec 8) : stickyBits (statusOnComplete none st) = stickyBits st :=
  stickyBits_setLastErr 0#3 st

/-- Sticky bit `k` belongs to code `k + 1`: a completion keeps it, and sets it when that is the code. -/
theorem getLsbD_stickyBits_statusOnComplete (e : Option CmdError) (st : BitVec 8) {k : Nat} (hk : k < 5) :
    (stickyBits (statusOnComplete e st)).getLsbD k =
      ((stickyBits st).getLsbD k || decide ((lastErr (statusOnComplete e st)).toNat = k + 1)) := by
  rw [lastErr_statusOnComplete]
  cases e with
  | none => simp [stickyBits_statusOnComplete_none]
  | some e =>
    have hcode := errorCode_toNat_bounds e
    have hbit : (1#5 <<< ((errorCode e).toNat - 1)).getLsbD k = decide ((errorCode e).toNat = k + 1) := by
      rw [BitVec.getLsbD_shiftLeft, BitVec.getLsbD_one, Bool.eq_iff_iff]
      simp only [Bool.and_eq_true, Bool.not_eq_true', decide_eq_true_eq, decide_eq_false_iff_not]
      omega
    rw [stickyBits_statusOnComplete_some, BitVec.getLsbD_or, hbit]
    rfl

/-! ### STATUS after a command word -/

/-- R25: of the commands' own writes, before completion, only ERRCLR's touch STATUS. -/
theorem effect_status {i : Instr} (h : i ≠ .errclr) (s : State) : (effect i s).status = s.status := by
  cases i
  case errclr => exact absurd rfl h
  all_goals rfl

/-- ERRCLR accepts every state, so it completes in the one way and clears STATUS (R138). -/
theorem exec_errclr_status {s t : State} (h : exec .errclr s = .next t) : t.status = 0#8 := by
  rcases exec_next h with ⟨_, rfl⟩ | ⟨hno, _⟩
  · exact statusOnComplete_clearSticky s.status
  · exact absurd trivial hno

/-- Every other command updates the STATUS it found, with the error it ended with, if any. -/
theorem exec_next_status {i : Instr} {s t : State} (hi : i ≠ .errclr) (h : exec i s = .next t) :
    ∃ e, t.status = statusOnComplete e s.status := by
  rcases exec_next h with ⟨_, rfl⟩ | ⟨_, e, rfl⟩
  · exact ⟨none, by rw [State.complete_status, effect_status hi]⟩
  · exact ⟨some e, State.complete_status ..⟩

theorem runWord_next_status {w : Word} {s t : State} (h : runWord w s = .next t) :
    (decode w = .ok .errclr ∧ t.status = 0#8) ∨
    (decode w ≠ .ok .errclr ∧ ∃ e, t.status = statusOnComplete e s.status) := by
  cases hw : decode w with
  | error r =>
    rw [runWord_error hw, raise_eq] at h
    cases h
    exact .inr ⟨by simp, some .illegalCommand, State.complete_status ..⟩
  | ok i =>
    rw [runWord_ok hw] at h
    by_cases hi : i = .errclr
    · subst hi
      exact .inl ⟨rfl, exec_errclr_status h⟩
    · exact .inr ⟨by simpa using hi, exec_next_status hi h⟩

/-- RDREG of STATUS completes with the value STATUS had before its own completion (R25, R137). -/
theorem exec_rdreg_status (s : State) :
    exec (.rdreg 1#4) s = .next ((s.withResult (s.status.setWidth 24)).complete none) :=
  exec_of_accepts (i := .rdreg 1#4) (by decide : registerLegal 1#4 = true)

/-- Settles O47: a completed word is an ERRCLR, which leaves STATUS 0, or updates the STATUS it found by `statusOnComplete`,
whose bits are known one by one. -/
theorem statusUpdateAtCompletion : Obligations.StatusUpdateAtCompletion := by
  refine ⟨fun w s t h => ?_, fun s => ⟨_, exec_rdreg_status s, rfl, lastErr_statusOnComplete none s.status⟩⟩
  rcases runWord_next_status h with ⟨hw, ht⟩ | ⟨hw, e, ht⟩ <;> rw [ht]
  · exact ⟨by decide, fun _ => rfl, fun hne => absurd hw hne⟩
  · exact ⟨lastErr_statusOnComplete_le e s.status, fun heq => absurd heq hw,
      fun _ _ hk => getLsbD_stickyBits_statusOnComplete e s.status hk⟩

end Sys2Proof.Claims
end

section
/-! SUPPORT. The packed-stream buffer (spec/20_memory.md R43 to R46): a run of bits as the sum of its bits, what
appending one code leaves, PACK and QPACK said once as one such append, and the stream a sequence of them builds. -/

open Sys2Proof Sys2Proof.Machine

namespace Sys2Proof.Claims

/-! ### BitRead (R43) -/

/-- The bits at their weights, each shifted to its place as R43 writes it. -/
theorem bitsValue_eq_sum (f : Nat → Bool) (n : Nat) :
    bitsValue f n = ∑ b ∈ Finset.range n, (f b).toNat <<< b := by
  induction n with
  | zero => rfl
  | succ n ih => rw [bitsValue, ih, Finset.sum_range_succ, Nat.shiftLeft_eq]

/-- Settles O21: the sum is R43's, by induction on the width; the bound and the bits are those of `bitRead`. -/
theorem bitReadIsTheSumOfItsBits : Obligations.BitReadIsTheSumOfItsBits :=
  fun s g n _ _ _ => ⟨bitsValue_eq_sum _ n, bitRead_lt _ g n, fun b hb => by simp [testBit_bitRead, hb]⟩

/-! ### Appending one code (R44, R45) -/

section

variable (s : State) (n v : Nat)

theorem bitAt_appendCode_code {b : Nat} (hb : b < n) :
    (s.appendCode n v).bitAt (s.wbit.toNat + b) = v.testBit b := by
  rw [State.bitAt_appendCode, if_pos (by omega), Nat.add_sub_cancel_left]

theorem bitAt_appendCode_padding {g : Nat} (hlo : s.wbit.toNat + n ≤ g)
    (hhi : g < 8 * ceilDiv8 (s.wbit.toNat + n)) : (s.appendCode n v).bitAt g = false := by
  rw [State.bitAt_appendCode, if_neg (by omega), if_pos ⟨hlo, hhi⟩]

theorem bitAt_appendCode_below {g : Nat} (hg : g < s.wbit.toNat) : (s.appendCode n v).bitAt g = s.bitAt g := by
  rw [State.bitAt_appendCode, if_neg (by omega), if_neg (by omega)]

variable {s n} (hsize : s.bufBytes ≤ 65536) (hfit : s.wbit.toNat + n ≤ 8 * s.bufBytes)
include hsize hfit

/-- In a buffer of legal size the cursor's 20 bits hold the new value. -/
theorem toNat_appendCode_wbit : (s.appendCode n v).wbit.toNat = s.wbit.toNat + n := by
  rw [State.appendCode_wbit, BitVec.toNat_ofNat, Nat.mod_eq_of_lt (by omega)]

/-- In a buffer of legal size the length's 17 bits hold the new value. -/
theorem toNat_appendCode_len : (s.appendCode n v).len.toNat = ceilDiv8 (s.wbit.toNat + n) := by
  rw [State.appendCode_len, BitVec.toNat_ofNat, Nat.mod_eq_of_lt (by simp only [ceilDiv8]; omega)]

end

/-! ### PACK and QPACK -/

/-- R22: every depth of the quantizer is one of the bit packer. -/
theorem packDepth_of_quantDepth {n : Nat} (h : quantDepth n) : packDepth n := by omega

/-- What a PACK or QPACK that succeeds answers: the state after the append of its code. QPACK also writes RESULT (R111),
so `result` is the one it leaves. -/
def afterPacking (s : State) (code : Nat) (result : Data) : State :=
  ((s.appendCode s.depth code).withResult result).complete none

/-- A packing command whose code fits succeeds: it appends that code. -/
theorem exec_of_packedCode {i : Instr} {s : State} {code : Nat} (hcode : packedCode s.depth s.rounding i = some code)
    (hfit : s.wbit.toNat + s.depth ≤ 8 * s.bufBytes) : ∃ result, exec i s = .next (afterPacking s code result) := by
  cases i <;> simp only [packedCode, reduceCtorEq, Option.ite_none_right_eq_some, Option.some.injEq] at hcode
  case pack c =>
    obtain ⟨hdepth, rfl⟩ := hcode
    exact ⟨s.result, exec_of_accepts (i := .pack c) ⟨hdepth, hfit⟩⟩
  case qpack x =>
    obtain ⟨hdepth, rfl⟩ := hcode
    exact ⟨_, exec_of_accepts (i := .qpack x) ⟨hdepth, hfit⟩⟩

/-- PACK and QPACK accept a state only where they have a code and it fits. -/
theorem packedCode_of_accepts {i : Instr} {s : State} (hi : (∃ code, i = .pack code) ∨ ∃ sample, i = .qpack sample)
    (h : accepts i s) :
    (∃ code, packedCode s.depth s.rounding i = some code) ∧ s.wbit.toNat + s.depth ≤ 8 * s.bufBytes := by
  rcases hi with ⟨c, rfl⟩ | ⟨x, rfl⟩ <;> obtain ⟨hdepth, hfit⟩ := h
  · exact ⟨⟨_, if_pos hdepth⟩, hfit⟩
  · exact ⟨⟨_, if_pos hdepth⟩, hfit⟩

/-- A completion with LASTERR = 0 is no raised error. -/
theorem accepts_of_lastErr_eq_zero {i : Instr} {s t : State} (h : exec i s = .next t) (hok : lastErr t.status = 0#3) :
    accepts i s := by
  rcases exec_next h with ⟨ha, _⟩ | ⟨_, e, rfl⟩
  · exact ha
  · rw [State.complete_status, lastErr_statusOnComplete] at hok
    cases e <;> cases hok

/-- Settles O22: the command appended a code, and the bits above it in its last byte are the padding of that append. -/
theorem paddingBitsAreZero : Obligations.PaddingBitsAreZero := by
  intro s t i hsize hi hexec hok g hlo hhi
  obtain ⟨⟨code, hcode⟩, hfit⟩ := packedCode_of_accepts hi (accepts_of_lastErr_eq_zero hexec hok)
  obtain ⟨result, hnext⟩ := exec_of_packedCode hcode hfit
  obtain rfl : afterPacking s code result = t := Host.Outcome.next.inj (hnext.symm.trans hexec)
  have hwbit : (afterPacking s code result).wbit.toNat = s.wbit.toNat + s.depth :=
    toNat_appendCode_wbit code hsize hfit
  rw [hwbit] at hlo hhi
  exact bitAt_appendCode_padding s s.depth code hlo hhi

/-! ### The stream of a sequence of packings (R46) -/

theorem execAll_cons {i : Instr} {s t : State} (is : List Instr) (h : exec i s = .next t) :
    execAll (i :: is) s = execAll is t := by
  simp [execAll, h]

theorem holdsPacked_nil {s : State} (n : Nat) (h : s.len = 0#17) : HoldsPacked s n [] := by
  simp [HoldsPacked, h]

/-- One more code at the end of a stream of `done.length` codes, the write cursor standing right behind them. -/
theorem HoldsPacked.appendCode {s : State} {n : Nat} {done : List Nat} (hold : HoldsPacked s n done) (v : Nat)
    (hwbit : s.wbit.toNat = done.length * n) (hsize : s.bufBytes ≤ 65536)
    (hfit : s.wbit.toNat + n ≤ 8 * s.bufBytes) : HoldsPacked (s.appendCode n v) n (done ++ [v]) := by
  obtain ⟨-, hbits, -⟩ := hold
  have hend : (done ++ [v]).length * n = s.wbit.toNat + n := by
    rw [List.length_append, List.length_singleton, Nat.succ_mul, hwbit]
  rw [HoldsPacked, hend, toNat_appendCode_len v hsize hfit]
  refine ⟨rfl, fun j hj b hb => ?_, fun g => bitAt_appendCode_padding s n v⟩
  rw [List.length_append, List.length_singleton] at hj
  rcases Nat.lt_succ_iff_lt_or_eq.1 hj with hlt | rfl
  · have hbelow : j * n + b < s.wbit.toNat := by
      calc j * n + b < (j + 1) * n := by rw [Nat.succ_mul]; omega
        _ ≤ s.wbit.toNat := hwbit ▸ Nat.mul_le_mul_right n hlt
    rw [bitAt_appendCode_below s n v hbelow, hbits j hlt b hb, List.getElem_append_left hlt]
  · rw [← hwbit, bitAt_appendCode_code s n v hb, List.getElem_concat_length rfl]

/-- Packings that all fit succeed, and their codes stand behind the `done` ones already in the stream. -/
theorem execAll_packings {cmds : List Instr} {codes done : List Nat} {s : State} (hsize : s.bufBytes ≤ 65536)
    (hcodes : cmds.map (packedCode s.depth s.rounding) = codes.map some)
    (hfit : (done.length + codes.length) * s.depth ≤ 8 * s.bufBytes)
    (hok : lastErr s.status = 0#3) (hwbit : s.wbit.toNat = done.length * s.depth)
    (hold : HoldsPacked s s.depth done) :
    ∃ t, execAll cmds s = .next t ∧ lastErr t.status = 0#3 ∧ stickyBits t.status = stickyBits s.status ∧
      HoldsPacked t s.depth (done ++ codes) := by
  induction cmds generalizing codes done s with
  | nil =>
    obtain rfl : codes = [] := by simpa using hcodes.symm
    exact ⟨s, rfl, hok, rfl, by rwa [List.append_nil]⟩
  | cons i cmds ih =>
    cases codes with
    | nil => simp at hcodes
    | cons code codes =>
      obtain ⟨hcode, hcodes⟩ := List.cons.inj hcodes
      have hfit₁ : s.wbit.toNat + s.depth ≤ 8 * s.bufBytes := by
        rw [hwbit, ← Nat.succ_mul]
        exact (Nat.mul_le_mul_right _ (by simp)).trans hfit
      obtain ⟨result, hexec⟩ := exec_of_packedCode hcode hfit₁
      have hlen : (done ++ [code]).length = done.length + 1 := List.length_append
      have hfit' : ((done ++ [code]).length + codes.length) * s.depth ≤ 8 * s.bufBytes := by
        rw [hlen, Nat.succ_add_eq_add_succ]
        exact hfit
      have hwbit' : (afterPacking s code result).wbit.toNat = (done ++ [code]).length * s.depth := by
        rw [hlen, Nat.succ_mul, ← hwbit]
        exact toNat_appendCode_wbit code hsize hfit₁
      obtain ⟨t, ht, hok', hsticky, hold'⟩ := ih (s := afterPacking s code result) hsize hcodes hfit'
        (lastErr_statusOnComplete none _) hwbit' (hold.appendCode code hwbit hsize hfit₁)
      refine ⟨t, (execAll_cons cmds hexec).trans ht, hok', ?_, by rwa [List.append_assoc] at hold'⟩
      exact hsticky.trans (stickyBits_statusOnComplete_none s.status)

/-- Settles O24: PCLR leaves an empty stream, and the packings append their codes to it one by one. -/
theorem packingKeepsTheLengthInvariant : Obligations.PackingKeepsTheLengthInvariant := by
  intro s cmds codes hsize hcodes hfit
  have hpclr : exec .pclr s = .next ((effect .pclr s).complete none) := exec_of_accepts (i := .pclr) trivial
  have hok : lastErr ((effect .pclr s).complete none).status = 0#3 := lastErr_statusOnComplete none s.status
  have hwbit : ((effect .pclr s).complete none).wbit.toNat = ([] : List Nat).length * s.depth :=
    (Nat.zero_mul s.depth).symm
  have hfit' : (([] : List Nat).length + codes.length) * s.depth ≤ 8 * s.bufBytes := by simpa using hfit
  have hempty : HoldsPacked ((effect .pclr s).complete none) s.depth [] := holdsPacked_nil s.depth rfl
  obtain ⟨t, ht, hok', hsticky, hold⟩ :=
    execAll_packings (s := (effect .pclr s).complete none) hsize hcodes hfit' hok hwbit hempty
  exact ⟨t, (execAll_cons cmds hpclr).trans ht, hok',
    hsticky.trans (stickyBits_statusOnComplete_none s.status), hold⟩

end Sys2Proof.Claims
end

section
/-! SUPPORT. The response of a command word (spec/30_encoding.md R75): the fields of the word, and the one way a command
word completes; and the sample words of R78. -/

open Sys2Proof Sys2Proof.Machine

namespace Sys2Proof.Claims

/-! ### The fields of a response word (R75) -/

section

variable (status : BitVec 8) (result : Data)

theorem responseWord_reserved : (responseWord status result).extractLsb' 27 5 = 0#5 := by
  rw [responseWord, BitVec.extractLsb'_append_eq_of_le (by decide)]
  exact BitVec.extractLsb'_append_eq_left

theorem responseWord_err : (responseWord status result).extractLsb' 24 3 = lastErr status := by
  rw [responseWord, BitVec.extractLsb'_append_eq_of_le (by decide)]
  exact BitVec.extractLsb'_append_eq_right

theorem responseWord_data : (responseWord status result).extractLsb' 0 24 = result :=
  BitVec.extractLsb'_append_eq_right

end

/-! ### The completion of a command word -/

/-- No command's own writes give a response: completion alone does. -/
theorem effect_responses (i : Instr) (s : State) : (effect i s).responses = s.responses := by
  cases i <;> rfl

/-- A word that completes, legal or not, does so once, from a state that has returned no response since `s`. -/
theorem runWord_next_complete {w : Word} {s t : State} (h : runWord w s = .next t) :
    ∃ (u : State) (e : Option CmdError), u.responses = s.responses ∧ t = u.complete e := by
  cases hw : decode w with
  | error r =>
    rw [runWord_error hw, raise_eq] at h
    exact ⟨s, some .illegalCommand, rfl, (Host.Outcome.next.inj h).symm⟩
  | ok i =>
    rw [runWord_ok hw] at h
    rcases exec_next h with ⟨_, ht⟩ | ⟨_, e, ht⟩
    · exact ⟨effect i s, none, effect_responses i s, ht⟩
    · exact ⟨s, some e, rfl, ht⟩

/-- Settles O49: the word's one completion appends the response of the STATUS and RESULT it leaves, and the three fields
are read back from that word. -/
theorem everyCommandGivesOneResponse : Obligations.EveryCommandGivesOneResponse := by
  intro w s t h
  obtain ⟨u, e, hu, rfl⟩ := runWord_next_complete h
  refine ⟨responseWord (u.complete e).status (u.complete e).result, ?_, responseWord_reserved .., responseWord_err ..,
    responseWord_data ..⟩
  rw [State.complete_responses, hu]
  rfl

/-! ### The sample words (R78) -/

/-- Settles O4: each part is about one literal line or one literal word, and the assembler and the decoder compute it. -/
theorem sampleWordsDecode : Obligations.SampleWordsDecode := by
  unfold Obligations.SampleWordsDecode
  and_intros <;> decide

end Sys2Proof.Claims
end

section
/-! SUPPORT. Sequences of PACK and of UNPACK (spec/40_bitpacker.md R82 to R86): what `packSequence` leaves, what UNPACKs
in a row read, and the stream they share. -/

open Sys2Proof Sys2Proof.Machine

namespace Sys2Proof.Claims

/-! ### Completions, as the statements write them -/

/-- R75: the response of a command that succeeds has ERR = 0. -/
theorem responseWord_statusOnComplete_none (st : BitVec 8) (r : Data) :
    responseWord (statusOnComplete none st) r = 0#8 ++ r := by
  rw [responseWord, lastErr_statusOnComplete]
  rfl

/-- R25: the STATUS an error leaves, field by field. -/
theorem statusOnComplete_some (e : CmdError) (st : BitVec 8) :
    statusOnComplete (some e) st = (stickyBits st ||| (1#5 <<< ((errorCode e).toNat - 1))) ++ errorCode e := by
  cases e <;> revert st <;> decide

theorem complete_some_eq_failed (e : CmdError) (s : State) : s.complete (some e) = failed e s := by
  have hlast : lastErr (statusOnComplete (some e) s.status) = errorCode e := lastErr_statusOnComplete ..
  rw [State.complete, failed, responseWord, hlast, statusOnComplete_some]

theorem failsWith_of_raise {e : CmdError} {i : Instr} {s : State} (h : exec i s = raise e s) : FailsWith e i s := by
  rw [FailsWith, h, raise_eq, complete_some_eq_failed]

/-- What a command that succeeds leaves: its own writes, and the completion. -/
def succeeded (i : Instr) (s : State) : State := (effect i s).complete none

theorem exec_eq_succeeded {i : Instr} {s : State} (h : accepts i s) : exec i s = .next (succeeded i s) :=
  exec_of_accepts h

/-- The one response of a command that succeeds. -/
theorem succeeded_responses (i : Instr) (s : State) :
    (succeeded i s).responses = s.responses ++ [0#8 ++ (effect i s).result] := by
  rw [succeeded, State.complete_responses, effect_responses, responseWord_statusOnComplete_none]

theorem execAll_append {is : List Instr} {s t : State} (js : List Instr) (h : execAll is s = .next t) :
    execAll (is ++ js) s = execAll js t := by
  induction is generalizing s with
  | nil => cases h; rfl
  | cons i is ih =>
    cases hi : exec i s with
    | next u =>
      rw [execAll_cons is hi] at h
      rw [List.cons_append, execAll_cons _ hi, ih h]
    | fault r => simp [execAll, hi] at h
    | refused r => simp [execAll, hi] at h

/-! ### PACK after PACK (R82) -/

/-- The state the PACKs of `packSequence` start from: after PCLR, RCLR and CFG. -/
def packStart (depth : BitVec 5) (s : State) : State :=
  succeeded (.cfg depth 0#2) (succeeded .rclr (succeeded .pclr s))

theorem execAll_packSequence (depth : BitVec 5) (codes : List (BitVec 24)) (s : State) :
    execAll (packSequence depth codes) s = execAll (codes.map .pack) (packStart depth s) := rfl

@[simp] theorem packStart_bufBytes (depth : BitVec 5) (s : State) : (packStart depth s).bufBytes = s.bufBytes := rfl
@[simp] theorem packStart_wbit (depth : BitVec 5) (s : State) : (packStart depth s).wbit = 0#20 := rfl
@[simp] theorem packStart_result (depth : BitVec 5) (s : State) : (packStart depth s).result = s.result := rfl

@[simp] theorem packStart_depth (depth : BitVec 5) (s : State) : (packStart depth s).depth = depth.toNat :=
  congrArg BitVec.toNat (depthField_cfgOf depth 0#2)

theorem packStart_responses (depth : BitVec 5) (s : State) :
    (packStart depth s).responses = s.responses ++ List.replicate 3 (0#8 ++ s.result) := by
  simp only [packStart, succeeded_responses, List.append_assoc]
  rfl

theorem packedCode_pack {n : Nat} (h : packDepth n) (rnd : Rounding) (code : BitVec 24) :
    packedCode n rnd (.pack code) = some (codeBits code n) := if_pos h

/-- R82: after `packSequence` BUF holds the codes' low N bits. -/
theorem execAll_packSequence_holdsPacked {s : State} {depth : BitVec 5} {codes : List (BitVec 24)}
    (hsize : s.bufBytes ≤ 65536) (hdepth : packDepth depth.toNat)
    (hfit : codes.length * depth.toNat ≤ 8 * s.bufBytes) :
    ∃ t, execAll (packSequence depth codes) s = .next t ∧
      HoldsPacked t depth.toNat (codes.map (codeBits · depth.toNat)) := by
  have hcodes : (codes.map Instr.pack).map (packedCode (packStart depth s).depth (packStart depth s).rounding) =
      (codes.map (codeBits · depth.toNat)).map some := by
    simp [packedCode_pack hdepth]
  obtain ⟨t, ht, -, -, hold⟩ := execAll_packings (s := packStart depth s) (done := []) hsize hcodes
    (by simpa using hfit) (lastErr_statusOnComplete none _) (by simp) (holdsPacked_nil _ rfl)
  rw [packStart_depth] at hold
  exact ⟨t, (execAll_packSequence depth codes s).trans ht, hold⟩

/-- What PACKs that all succeed leave alone, and their responses. -/
structure PackedFrom (s : State) (count : Nat) (t : State) : Prop where
  bufBytes : t.bufBytes = s.bufBytes
  depth : t.depth = s.depth
  result : t.result = s.result
  responses : t.responses = s.responses ++ List.replicate count (0#8 ++ s.result)

theorem packedFrom_of_execAll_packs {s t : State} {codes : List (BitVec 24)} (hsize : s.bufBytes ≤ 65536)
    (hdepth : packDepth s.depth) (hfit : s.wbit.toNat + codes.length * s.depth ≤ 8 * s.bufBytes)
    (h : execAll (codes.map .pack) s = .next t) : PackedFrom s codes.length t := by
  induction codes generalizing s with
  | nil =>
    cases h
    exact ⟨rfl, rfl, rfl, (List.append_nil _).symm⟩
  | cons c codes ih =>
    rw [List.length_cons, Nat.succ_mul] at hfit
    have hfit₁ : s.wbit.toNat + s.depth ≤ 8 * s.bufBytes := by omega
    have hexec : exec (.pack c) s = .next (succeeded (.pack c) s) := exec_eq_succeeded ⟨hdepth, hfit₁⟩
    have hwbit : (succeeded (.pack c) s).wbit.toNat = s.wbit.toNat + s.depth :=
      toNat_appendCode_wbit (codeBits c s.depth) hsize hfit₁
    have hfit' : (succeeded (.pack c) s).wbit.toNat + codes.length * s.depth ≤ 8 * s.bufBytes := by omega
    have hfrom : PackedFrom (succeeded (.pack c) s) codes.length t :=
      ih hsize hdepth hfit' ((execAll_cons _ hexec).symm.trans h)
    refine ⟨hfrom.bufBytes, hfrom.depth, hfrom.result, ?_⟩
    rw [hfrom.responses, succeeded_responses, List.append_assoc]
    rfl

/-! ### UNPACK after UNPACK (R83) -/

theorem exec_unpack_of_fits {s : State} (hdepth : packDepth s.depth) (hlen : s.len.toNat ≤ s.bufBytes)
    (hfit : s.rbit.toNat + s.depth ≤ 8 * s.len.toNat) : exec .unpack s = .next (succeeded .unpack s) :=
  exec_eq_succeeded ⟨hdepth, hfit, by omega⟩

theorem exec_unpack_truncated {s : State} (hdepth : packDepth s.depth)
    (h : 8 * s.len.toNat < s.rbit.toNat + s.depth) : exec .unpack s = raise .truncatedStream s := by
  rw [exec, execUnpack, if_neg (not_not.2 hdepth), unpackWith, if_pos h]

/-- Code `j` of the stream that starts at bit `g`, as RESULT holds it. -/
def streamCode (s : State) (g j : Nat) : Data := zext24 (bitRead s.bitAt (g + j * s.depth) s.depth)

/-- What `k` UNPACKs that all succeed leave: RBIT behind the `k` codes, a response for each code, no error. -/
structure UnpackedFrom (s : State) (k : Nat) (t : State) : Prop where
  bufBytes : t.bufBytes = s.bufBytes
  depth : t.depth = s.depth
  len : t.len = s.len
  bitAt : t.bitAt = s.bitAt
  sticky : stickyBits t.status = stickyBits s.status
  rbit : t.rbit.toNat = s.rbit.toNat + k * s.depth
  responses : t.responses = s.responses ++ (List.range k).map fun j => 0#8 ++ streamCode s s.rbit.toNat j

theorem UnpackedFrom.zero (s : State) : UnpackedFrom s 0 s :=
  ⟨rfl, rfl, rfl, rfl, rfl, by simp, by simp⟩

theorem UnpackedFrom.succ {s t : State} {k : Nat} (h : UnpackedFrom s k t) (hsize : s.bufBytes ≤ 65536)
    (hfit : t.rbit.toNat + t.depth ≤ 8 * s.bufBytes) : UnpackedFrom s (k + 1) (succeeded .unpack t) := by
  refine ⟨h.bufBytes, h.depth, h.len, h.bitAt, (stickyBits_statusOnComplete_none t.status).trans h.sticky, ?_, ?_⟩
  · have hwidth : (BitVec.ofNat 20 (t.rbit.toNat + t.depth)).toNat = t.rbit.toNat + t.depth := by
      rw [BitVec.toNat_ofNat, Nat.mod_eq_of_lt (by omega)]
    rw [Nat.succ_mul, ← Nat.add_assoc, ← h.rbit, ← h.depth]
    exact hwidth
  · have hread : (effect .unpack t).result = streamCode s s.rbit.toNat k := by
      rw [streamCode, ← h.rbit, ← h.bitAt, ← h.depth]
      rfl
    rw [succeeded_responses, h.responses, hread, List.range_succ, List.map_append, List.append_assoc]
    rfl

/-- As many UNPACKs as there are codes up to LEN all succeed. -/
theorem execAll_unpacks {s : State} (hsize : s.bufBytes ≤ 65536) (hlen : s.len.toNat ≤ s.bufBytes)
    (hdepth : packDepth s.depth) {k : Nat} (hfit : s.rbit.toNat + k * s.depth ≤ 8 * s.len.toNat) :
    ∃ t, execAll (List.replicate k .unpack) s = .next t ∧ UnpackedFrom s k t := by
  induction k with
  | zero => exact ⟨s, rfl, .zero s⟩
  | succ k ih =>
    rw [Nat.succ_mul] at hfit
    obtain ⟨t, ht, hfrom⟩ := ih (by omega)
    have hfit₁ : t.rbit.toNat + t.depth ≤ 8 * s.len.toNat := by rw [hfrom.rbit, hfrom.depth]; omega
    have hexec : exec .unpack t = .next (succeeded .unpack t) := by
      refine exec_unpack_of_fits (hfrom.depth ▸ hdepth) ?_ (hfrom.len ▸ hfit₁)
      rw [hfrom.len, hfrom.bufBytes]
      exact hlen
    refine ⟨_, ?_, hfrom.succ hsize (by omega)⟩
    rw [List.replicate_succ', execAll_append _ ht, execAll_cons _ hexec]
    rfl

/-! ### Reading a packed stream -/

section

variable {s : State} {n : Nat} {codes : List Nat} (hold : HoldsPacked s n codes)
include hold

/-- Reading N bits at code `j` gives the code back. -/
theorem HoldsPacked.bitRead_code {j : Nat} (hj : j < codes.length) :
    bitRead s.bitAt (j * n) n = codes[j] % 2 ^ n := by
  obtain ⟨-, hbits, -⟩ := hold
  rw [← bitsValue_testBit]
  exact bitsValue_congr (hbits j hj)

/-- Reading N bits of padding gives 0 (R85). -/
theorem HoldsPacked.bitRead_padding {g : Nat} (hlo : codes.length * n ≤ g) (hhi : g + n ≤ 8 * s.len.toNat) :
    bitRead s.bitAt g n = 0 := by
  obtain ⟨-, -, hpad⟩ := hold
  refine Nat.eq_of_testBit_eq fun b => ?_
  rw [testBit_bitRead, Nat.zero_testBit, Bool.and_eq_false_imp, decide_eq_true_eq]
  exact fun hb => hpad _ (by omega) (by omega)

theorem HoldsPacked.codes_le_len : codes.length * n ≤ 8 * s.len.toNat := by
  obtain ⟨hlen, -, -⟩ := hold
  omega

/-- Where codes of N bits fit, their stream ends inside BUF. -/
theorem HoldsPacked.len_le_bufBytes (hfit : codes.length * n ≤ 8 * s.bufBytes) : s.len.toNat ≤ s.bufBytes := by
  obtain ⟨hlen, -, -⟩ := hold
  omega

end

/-! ### The round trip (R84) -/

theorem zext24_codeBits {c : BitVec 24} {n : Nat} (hc : c.toNat < 2 ^ n) : zext24 (codeBits c n % 2 ^ n) = c := by
  rw [codeBits, Nat.mod_mod, Nat.mod_eq_of_lt hc, zext24, BitVec.ofNat_toNat, BitVec.setWidth_eq]

theorem HoldsPacked.map_streamCode {s : State} {codes : List (BitVec 24)}
    (hold : HoldsPacked s s.depth (codes.map (codeBits · s.depth))) (hcodes : ∀ c ∈ codes, c.toNat < 2 ^ s.depth) :
    (List.range codes.length).map (streamCode s 0) = codes := by
  refine List.ext_getElem (by simp) fun j _ hj => ?_
  rw [List.getElem_map, List.getElem_range, streamCode, Nat.zero_add, hold.bitRead_code (by simpa using hj),
    List.getElem_map]
  exact zext24_codeBits (hcodes _ (List.getElem_mem hj))

/-- R84 from a state that holds the packed codes: RCLR, then one UNPACK per code. -/
theorem execAll_rclr_unpacks {s : State} {codes : List (BitVec 24)} (hsize : s.bufBytes ≤ 65536)
    (hdepth : packDepth s.depth) (hold : HoldsPacked s s.depth (codes.map (codeBits · s.depth)))
    (hcodes : ∀ c ∈ codes, c.toNat < 2 ^ s.depth) (hfit : codes.length * s.depth ≤ 8 * s.bufBytes) :
    ∃ t, execAll (.rclr :: List.replicate codes.length .unpack) s = .next t ∧
      t.responses = s.responses ++ (0#8 ++ s.result) :: codes.map fun c => 0#8 ++ c := by
  have hexec : exec .rclr s = .next (succeeded .rclr s) := exec_eq_succeeded (i := .rclr) trivial
  have hread : (succeeded .rclr s).rbit.toNat + codes.length * s.depth ≤ 8 * s.len.toNat :=
    (Nat.zero_add _).trans_le (by simpa using hold.codes_le_len)
  obtain ⟨t, ht, hfrom⟩ := execAll_unpacks (s := succeeded .rclr s) hsize
    (hold.len_le_bufBytes (by simpa using hfit)) hdepth hread
  refine ⟨t, (execAll_cons _ hexec).trans ht, ?_⟩
  have hcodes' : (List.range codes.length).map (streamCode (succeeded .rclr s) 0) = codes :=
    hold.map_streamCode hcodes
  rw [hfrom.responses, succeeded_responses, List.append_assoc]
  conv_rhs => rw [← hcodes', List.map_map]
  rfl

/-- Settles O23: the PACKs leave a stream that holds the codes, and each UNPACK reads one of them back. -/
theorem unpackReturnsThePackedCodes : Obligations.UnpackReturnsThePackedCodes := by
  intro s depth codes hsize hlo hhi hcodes hfit
  obtain ⟨t, ht, hold⟩ := execAll_packSequence_holdsPacked hsize ⟨hlo, hhi⟩ hfit
  have hfrom : PackedFrom (packStart depth s) codes.length t :=
    packedFrom_of_execAll_packs hsize ((packStart_depth depth s).symm ▸ ⟨hlo, hhi⟩) (by simpa using hfit) ht
  have hdepth : t.depth = depth.toNat := hfrom.depth.trans (packStart_depth depth s)
  have hbytes : t.bufBytes = s.bufBytes := hfrom.bufBytes
  have hresult : t.result = s.result := hfrom.result
  rw [← hdepth] at hlo hhi hcodes hold hfit
  rw [← hbytes] at hsize hfit
  obtain ⟨u, hu, hread⟩ := execAll_rclr_unpacks hsize ⟨hlo, hhi⟩ hold hcodes hfit
  refine ⟨t, u, ht, hu, ?_, hresult ▸ hread⟩
  rw [hfrom.responses, packStart_responses, packStart_result, List.append_assoc, List.replicate_append_replicate,
    Nat.add_comm 3]

/-! ### The codes of a stream (R85) -/

/-- R85's bounds: `l` codes take `ceil(l × N / 8)` bytes, and at most 7 bits of padding follow them. -/
theorem codesOfPackedBytes_bounds (n l : Nat) (hn : 1 ≤ n) :
    l ≤ 8 * ((l * n + 7) / 8) / n ∧ 8 * ((l * n + 7) / 8) / n ≤ l + 7 / n := by
  constructor
  · exact (Nat.le_div_iff_mul_le hn).2 (by omega)
  · calc 8 * ((l * n + 7) / 8) / n ≤ (7 + l * n) / n := Nat.div_le_div_right (by omega)
      _ = l + 7 / n := by rw [Nat.add_mul_div_right _ _ hn, Nat.add_comm]

/-- The UNPACKs that R85 counts, each of which succeeds, from RBIT = 0. -/
theorem execAll_unpacks_of_le {s : State} (hsize : s.bufBytes ≤ 65536) (hlen : s.len.toNat ≤ s.bufBytes)
    (hdepth : packDepth s.depth) (hrbit : s.rbit = 0#20) {j : Nat} (hj : j ≤ 8 * s.len.toNat / s.depth) :
    ∃ t, execAll (List.replicate j .unpack) s = .next t ∧ UnpackedFrom s j t ∧ t.rbit.toNat = j * s.depth := by
  have hzero : s.rbit.toNat = 0 := by rw [hrbit]; rfl
  have hfit : j * s.depth ≤ 8 * s.len.toNat := (Nat.le_div_iff_mul_le hdepth.1).1 hj
  obtain ⟨t, ht, hfrom⟩ := execAll_unpacks hsize hlen hdepth (k := j) (by omega)
  exact ⟨t, ht, hfrom, by rw [hfrom.rbit, hzero, Nat.zero_add]⟩

/-- Settles O25: UNPACK fails first where fewer than N bits remain before LEN, and above the packed codes it reads
padding alone. -/
theorem availableCodesOfAStream : Obligations.AvailableCodesOfAStream := by
  refine ⟨fun s hsize hlen hlo hhi hrbit => ⟨fun j hj => ?_, ?_⟩, fun n l hn _ => codesOfPackedBytes_bounds n l hn,
    fun s codes j hsize hlen hlo hhi hold hj hrbit hfit => ?_⟩
  · obtain ⟨t, ht, hfrom, hpos⟩ := execAll_unpacks_of_le hsize hlen ⟨hlo, hhi⟩ hrbit hj
    exact ⟨t, ht, hpos, hfrom.sticky⟩
  · obtain ⟨t, ht, hfrom, hpos⟩ := execAll_unpacks_of_le hsize hlen ⟨hlo, hhi⟩ hrbit le_rfl
    have hshort : 8 * s.len.toNat < 8 * s.len.toNat / s.depth * s.depth + s.depth := Nat.lt_div_mul_add hlo
    refine ⟨t, ht, failsWith_of_raise (exec_unpack_truncated (hfrom.depth ▸ ⟨hlo, hhi⟩) ?_)⟩
    rwa [hfrom.len, hpos, hfrom.depth]
  · rw [Nat.succ_mul, ← hrbit] at hfit
    have hread : bitRead s.bitAt s.rbit.toNat s.depth = 0 :=
      hold.bitRead_padding (hrbit ▸ Nat.mul_le_mul_right _ hj) hfit
    exact ⟨_, exec_unpack_of_fits ⟨hlo, hhi⟩ hlen hfit, lastErr_statusOnComplete none _, congrArg zext24 hread⟩

/-! ### Nibbles (R86) -/

theorem bitAt_eq_getLsbD_byteAt (s : State) (a : Nat) {b : Nat} (hb : b < 8) :
    s.bitAt (8 * a + b) = (s.byteAt a).getLsbD b := by
  rw [State.bitAt, Nat.mul_add_div (by decide), Nat.mul_add_mod, Nat.div_eq_of_lt hb, Nat.mod_eq_of_lt hb, Nat.add_zero]

/-- At depth 4 code `j` is the nibble `j % 2` of byte `j / 2`, the low one first. -/
theorem HoldsPacked.nibble {s : State} {codes : List Nat} (hold : HoldsPacked s 4 codes) {j : Nat}
    (hj : j < codes.length) : (s.byteAt (j / 2)).extractLsb' (4 * (j % 2)) 4 = BitVec.ofNat 4 codes[j] := by
  obtain ⟨-, hbits, -⟩ := hold
  refine BitVec.eq_of_getLsbD_eq fun b hb => ?_
  have hplace : j * 4 + b = 8 * (j / 2) + (4 * (j % 2) + b) := by omega
  rw [BitVec.getLsbD_extractLsb', BitVec.getLsbD_ofNat, ← hbits j hj b hb, hplace,
    bitAt_eq_getLsbD_byteAt _ _ (by omega)]

theorem ofNat_codeBits (code : BitVec 24) (n : Nat) : BitVec.ofNat n (codeBits code n) = code.setWidth n := by
  refine BitVec.eq_of_toNat_eq ?_
  rw [BitVec.toNat_ofNat, BitVec.toNat_setWidth, codeBits, Nat.mod_mod]

/-- Settles O26: code `2j` is nibble 0 and code `2j + 1` nibble 1 of byte `j`. -/
theorem depthFourNibbleOrder : Obligations.DepthFourNibbleOrder := by
  intro s codes hsize hfit
  obtain ⟨t, ht, hold⟩ := execAll_packSequence_holdsPacked (depth := 4#5) hsize (by decide) hfit
  have hnibble : ∀ (j : Nat) (h : j < codes.length),
      (t.byteAt (j / 2)).extractLsb' (4 * (j % 2)) 4 = codes[j].setWidth 4 := fun j h => by
    rw [HoldsPacked.nibble hold (by simpa using h), List.getElem_map]
    exact ofNat_codeBits codes[j] 4
  refine ⟨t, ht, fun j h => ?_, fun j h => ?_⟩
  · simpa using hnibble (2 * j) h
  · simpa [Nat.mul_add_div] using hnibble (2 * j + 1) h

end Sys2Proof.Claims
end

section
/-! SUPPORT. Quantize and dequantize as functions (spec/41_quantizer.md R100 to R107, R113 to R115, R117): the rounding depths
as one floor division with the offset of the rounding mode, the wide depths as bit patterns of the sample. -/

open Sys2Proof Sys2Proof.Machine

namespace Sys2Proof.Claims

/-! ### Samples -/

theorem isSample_toInt (x : BitVec 16) : isSample x.toInt :=
  ⟨BitVec.le_toInt x, Int.le_of_lt_add_one BitVec.toInt_lt⟩

/-- Every LinearSample is the reading of a 16-bit pattern (R8). -/
theorem exists_toInt_eq {s : Int} (hs : isSample s) : ∃ x : BitVec 16, x.toInt = s :=
  ⟨BitVec.ofInt 16 s, BitVec.toInt_ofInt_eq_self (by decide) hs.1 (by omega)⟩

/-! ### The rounding depths: M = 2^N − 1 -/

section

variable {n : Nat} (hn : roundingDepth n)
include hn

theorem levels_cases : 2 ^ n - 1 = 1 ∨ 2 ^ n - 1 = 3 ∨ 2 ^ n - 1 = 15 ∨ 2 ^ n - 1 = 255 := by
  rcases hn with rfl | rfl | rfl | rfl <;> decide

theorem levels_bounds : 1 ≤ 2 ^ n - 1 ∧ 2 ^ n - 1 ≤ 255 := by
  have hlevels := levels_cases hn
  omega

end

theorem cast_levels (n : Nat) : ((2 ^ n - 1 : Nat) : ℚ) = 2 ^ n - 1 := by
  rw [Nat.cast_pred (Nat.two_pow_pos n), Nat.cast_pow, Nat.cast_ofNat]

theorem levels_ne_zero {n : Nat} (hn : roundingDepth n) : (2 ^ n - 1 : ℚ) ≠ 0 := by
  have hlevels := levels_bounds hn
  rw [← cast_levels, Nat.cast_ne_zero]
  omega

/-! ### Q at the rounding depths (R101, R102) -/

/-- What a rounding mode adds to u × M before the shift by 16. -/
def roundingOffset : Rounding → Int
  | .floor => 0
  | .nearest => 32768

theorem roundingOffset_bounds (rnd : Rounding) : 0 ≤ roundingOffset rnd ∧ roundingOffset rnd ≤ 32768 := by
  cases rnd <;> decide

theorem quantProduct_mono {s s' : Int} (h : s ≤ s') (n : Nat) : quantProduct s n ≤ quantProduct s' n :=
  Int.mul_le_mul_of_nonneg_right (by omega) (Int.natCast_nonneg _)

theorem quantProduct_bounds {s : Int} (hs : isSample s) (n : Nat) :
    0 ≤ quantProduct s n ∧ quantProduct s n ≤ 65535 * (2 ^ n - 1 : Nat) := by
  have hlo := quantProduct_mono hs.1 n
  have hhi := quantProduct_mono hs.2 n
  simp only [quantProduct] at hlo hhi ⊢
  omega

theorem floor_normalizedCode (s : Int) (n : Nat) (rnd : Rounding) :
    ⌊normalizedCode s n + (roundingOffset rnd : ℚ) / 65536⌋ = (quantProduct s n + roundingOffset rnd) / 65536 := by
  have hquot : normalizedCode s n + (roundingOffset rnd : ℚ) / 65536 =
      ((quantProduct s n + roundingOffset rnd : Int) : ℚ) / (65536 : Nat) := by
    rw [normalizedCode, quantProduct]
    push_cast [cast_levels]
    ring
  rw [hquot, Rat.floor_intCast_div_natCast]
  rfl

section

variable {n : Nat} (hn : roundingDepth n) (rnd : Rounding)
include hn

theorem quantize_eq_toNat (s : Int) :
    quantize s n rnd = ((quantProduct s n + roundingOffset rnd) / 65536).toNat := by
  have hwide : n ≠ 16 ∧ n ≠ 24 := by omega
  cases rnd <;> simp only [quantize, if_neg hwide.1, if_neg hwide.2, roundingOffset, Int.add_zero]

theorem quantize_mono {s s' : Int} (h : s ≤ s') : quantize s n rnd ≤ quantize s' n rnd := by
  rw [quantize_eq_toNat hn, quantize_eq_toNat hn]
  have hprod := quantProduct_mono h n
  omega

variable {s : Int} (hs : isSample s)
include hs

/-- On samples the product is not negative, so Q is the floor division itself. -/
theorem cast_quantize : (quantize s n rnd : Int) = (quantProduct s n + roundingOffset rnd) / 65536 := by
  have hprod := quantProduct_bounds hs n
  have hoff := roundingOffset_bounds rnd
  rw [quantize_eq_toNat hn]
  omega

theorem cast_quantize_eq_floor :
    (quantize s n rnd : Int) = ⌊normalizedCode s n + (roundingOffset rnd : ℚ) / 65536⌋ := by
  rw [cast_quantize hn rnd hs, floor_normalizedCode]

theorem quantize_le_levels : quantize s n rnd ≤ 2 ^ n - 1 := by
  have hcode := cast_quantize hn rnd hs
  have hprod := quantProduct_bounds hs n
  have hoff := roundingOffset_bounds rnd
  have hlevels := levels_bounds hn
  omega

/-- R113: FLOOR never gives M, for u × M < 65536 × M. -/
theorem quantize_floor_lt_levels : quantize s n .floor < 2 ^ n - 1 := by
  have hcode := cast_quantize hn .floor hs
  have hprod := quantProduct_bounds hs n
  have hlevels := levels_bounds hn
  simp only [roundingOffset] at *
  omega

end

/-- R113: every code up to the one of the greatest sample occurs. The sample is the least one whose product reaches the
code. -/
theorem exists_quantize_eq {n : Nat} (hn : roundingDepth n) (rnd : Rounding) {c : Nat}
    (hc : (c : Int) * 65536 ≤ 65535 * (2 ^ n - 1 : Nat) + roundingOffset rnd) :
    ∃ s, isSample s ∧ quantize s n rnd = c := by
  have hoff := roundingOffset_bounds rnd
  have hreach : ∃ s, isSample s ∧ (c : Int) * 65536 ≤ quantProduct s n + roundingOffset rnd ∧
      quantProduct s n + roundingOffset rnd < (c + 1) * 65536 := by
    refine ⟨max 0 ((c * 65536 - roundingOffset rnd + (2 ^ n - 1 : Nat) - 1) / (2 ^ n - 1 : Nat)) - 32768, ?_⟩
    rw [quantProduct]
    rcases levels_cases hn with hM | hM | hM | hM <;> rw [hM] at hc ⊢ <;> omega
  obtain ⟨s, hs, hlo, hhi⟩ := hreach
  have hcode := cast_quantize hn rnd hs
  exact ⟨s, hs, by omega⟩

/-! ### DQ at the rounding depths (R105) -/

theorem clamp_eq (t : Int) : clamp t (-32768) 32767 = max (-32768) (min 32767 t) := by
  rw [clamp]
  omega

theorem clamp_mono {t t' : Int} (h : t ≤ t') (lo hi : Int) : clamp t lo hi ≤ clamp t' lo hi :=
  min_le_min_left _ (max_le_max_left _ h)

theorem isSample_clamp (t : Int) : isSample (clamp t (-32768) 32767) := by
  rw [clamp]
  omega

theorem dequantRaw_mono {c c' : Nat} (h : c ≤ c') (n : Nat) : dequantRaw c n ≤ dequantRaw c' n := by
  have hdiv : (2 * c * 65536 + (2 ^ n - 1)) / (2 * (2 ^ n - 1)) ≤ (2 * c' * 65536 + (2 ^ n - 1)) / (2 * (2 ^ n - 1)) :=
    Nat.div_le_div_right (by omega)
  rw [dequantRaw, dequantRaw]
  omega

section

variable {n : Nat} (hn : roundingDepth n)
include hn

theorem dequantize_eq_clamp (c : Nat) : dequantize c n = clamp (dequantRaw c n) (-32768) 32767 := by
  have hwide : n ≠ 16 ∧ n ≠ 24 := by omega
  rw [dequantize, if_neg hwide.1, if_neg hwide.2]

theorem dequantize_mono {c c' : Nat} (h : c ≤ c') : dequantize c n ≤ dequantize c' n := by
  rw [dequantize_eq_clamp hn, dequantize_eq_clamp hn]
  exact clamp_mono (dequantRaw_mono h n) _ _

/-- R105, R113: before the clamp the codes below M are samples, and M is one above the greatest. -/
theorem isSample_dequantRaw_iff {c : Nat} (hc : c ≤ 2 ^ n - 1) : isSample (dequantRaw c n) ↔ c ≠ 2 ^ n - 1 := by
  rw [dequantRaw]
  rcases levels_cases hn with hM | hM | hM | hM <;> rw [hM] at hc ⊢ <;> omega

theorem dequantize_eq_dequantRaw_iff {c : Nat} (hc : c ≤ 2 ^ n - 1) :
    dequantize c n = dequantRaw c n ↔ c ≠ 2 ^ n - 1 := by
  rw [← isSample_dequantRaw_iff hn hc, dequantize_eq_clamp hn, clamp]
  omega

/-- The t of R105 is the exact number rounded, ties upward. -/
theorem round_normalizedSample (c : Nat) : round (normalizedSample c n) = dequantRaw c n := by
  have hM := levels_ne_zero hn
  have hquot : normalizedSample c n + 1 / 2 =
      ((2 * c * 65536 + (2 ^ n - 1) : Nat) : ℚ) / (2 * (2 ^ n - 1) : Nat) - (32768 : Int) := by
    rw [normalizedSample]
    push_cast [cast_levels]
    field_simp
    ring
  rw [round_eq, hquot, Int.floor_sub_intCast, Rat.floor_natCast_div_natCast]
  rfl

/-- R117: 2 × c × 65536 is even, and M times an odd number is odd. -/
theorem normalizedSample_ne_half (c : Nat) (k : Int) : normalizedSample c n ≠ k + 1 / 2 := by
  intro heq
  have hM := levels_ne_zero hn
  have hparity : (131072 * c : Int) = (2 ^ n - 1 : Nat) * (2 * k + 65537) := by
    rw [normalizedSample] at heq
    field_simp at heq
    have hrat : (131072 * c : ℚ) = (2 ^ n - 1 : Nat) * (2 * k + 65537) := by
      rw [cast_levels]
      linarith
    exact_mod_cast hrat
  rcases levels_cases hn with h | h | h | h <;> rw [h] at hparity <;> omega

/-- R117: without ties, an integer within 1/2 of the exact number is its rounding. -/
theorem eq_dequantRaw_of_abs_le {c : Nat} {t : Int} (h : |normalizedSample c n - t| ≤ 1 / 2) : t = dequantRaw c n := by
  obtain ⟨hlo, hhi⟩ := abs_le.1 h
  have hlt : normalizedSample c n < t + 1 / 2 :=
    lt_of_le_of_ne (by linarith) (normalizedSample_ne_half hn c t)
  rw [← round_normalizedSample hn, eq_comm, round_eq_iff]
  exact ⟨by linarith, hlt⟩

end

/-! ### Q and DQ at depths 16 and 24 (R103, R104, R106, R107) -/

theorem pat_toInt {W : Nat} (p : BitVec W) : pat W p.toInt = p.toNat := by
  rw [pat, ← BitVec.toNat_ofInt, BitVec.ofInt_toInt]

theorem sext_toNat {W : Nat} (p : BitVec W) : sext W p.toNat = p.toInt := by
  rw [sext, BitVec.ofNat_toNat, BitVec.setWidth_eq]

theorem toInt_append_byte (x : BitVec 16) (b : BitVec 8) : (x ++ b).toInt = 256 * x.toInt + b.toNat :=
  BitVec.toInt_append

theorem toNat_append_byte (x : BitVec 16) (b : BitVec 8) : (x ++ b).toNat = 256 * x.toNat + b.toNat := by
  rw [BitVec.toNat_append, ← Nat.shiftLeft_add_eq_or_of_lt b.isLt, Nat.shiftLeft_eq, Nat.mul_comm]

section

variable (x : BitVec 16) (rnd : Rounding)

theorem quantize_sixteen : quantize x.toInt 16 rnd = x.toNat := pat_toInt x

/-- R104: the code is {pat_16(s), 0x00}. -/
theorem quantize_twentyFour : quantize x.toInt 24 rnd = (x ++ 0#8).toNat := by
  have hcode : (x ++ 0#8).toInt = x.toInt * 256 := by simp [toInt_append_byte, Int.mul_comm]
  exact (congrArg (pat 24) hcode.symm).trans (pat_toInt (x ++ 0#8))

theorem dequantize_sixteen : dequantize x.toNat 16 = x.toInt := sext_toNat x

/-- R107: the low byte is dropped, toward minus infinity. -/
theorem dequantize_twentyFour (b : BitVec 8) : dequantize (x ++ b).toNat 24 = x.toInt := by
  have hread : dequantize (x ++ b).toNat 24 = (x ++ b).toInt / 256 := congrArg (· / 256) (sext_toNat (x ++ b))
  have hlow := b.isLt
  rw [hread, toInt_append_byte]
  omega

end

theorem quantize_wide_lt {n : Nat} (hn : n = 16 ∨ n = 24) (rnd : Rounding) (x : BitVec 16) :
    quantize x.toInt n rnd < 2 ^ n := by
  rcases hn with rfl | rfl
  · rw [quantize_sixteen]
    exact x.isLt
  · rw [quantize_twentyFour]
    exact (x ++ 0#8).isLt

/-- R116: DQ undoes Q at the wide depths. -/
theorem dequantize_quantize_wide {n : Nat} (hn : n = 16 ∨ n = 24) (rnd : Rounding) (x : BitVec 16) :
    dequantize (quantize x.toInt n rnd) n = x.toInt := by
  rcases hn with rfl | rfl
  · rw [quantize_sixteen, dequantize_sixteen]
  · rw [quantize_twentyFour, dequantize_twentyFour]

theorem dequantize_quantize_of_isSample {n : Nat} (hn : n = 16 ∨ n = 24) (rnd : Rounding) {s : Int} (hs : isSample s) :
    dequantize (quantize s n rnd) n = s := by
  obtain ⟨x, rfl⟩ := exists_toInt_eq hs
  exact dequantize_quantize_wide hn rnd x

/-- R114: the signed reading of a wide code is the sample, or 256 times the sample. -/
theorem sext_quantize_mono {n : Nat} (hn : n = 16 ∨ n = 24) (rnd : Rounding) {s s' : Int} (hs : isSample s)
    (hs' : isSample s') (h : s ≤ s') : sext n (quantize s n rnd) ≤ sext n (quantize s' n rnd) := by
  obtain ⟨x, rfl⟩ := exists_toInt_eq hs
  obtain ⟨y, rfl⟩ := exists_toInt_eq hs'
  rcases hn with rfl | rfl
  · rwa [quantize_sixteen, quantize_sixteen, sext_toNat, sext_toNat]
  · rw [quantize_twentyFour, quantize_twentyFour, sext_toNat, sext_toNat, toInt_append_byte, toInt_append_byte]
    omega

theorem exists_quantize_sixteen_iff (c : Nat) (rnd : Rounding) :
    (∃ s, isSample s ∧ quantize s 16 rnd = c) ↔ c < 2 ^ 16 := by
  constructor
  · rintro ⟨s, hs, rfl⟩
    obtain ⟨x, rfl⟩ := exists_toInt_eq hs
    rw [quantize_sixteen]
    exact x.isLt
  · intro hc
    exact ⟨(BitVec.ofNat 16 c).toInt, isSample_toInt _, by rw [quantize_sixteen, BitVec.toNat_ofNat, Nat.mod_eq_of_lt hc]⟩

theorem exists_quantize_twentyFour_iff (c : Nat) (rnd : Rounding) :
    (∃ s, isSample s ∧ quantize s 24 rnd = c) ↔ c < 2 ^ 24 ∧ c % 256 = 0 := by
  have hcode : ∀ x : BitVec 16, quantize x.toInt 24 rnd = 256 * x.toNat := fun x => by
    rw [quantize_twentyFour, toNat_append_byte]
    rfl
  constructor
  · rintro ⟨s, hs, rfl⟩
    obtain ⟨x, rfl⟩ := exists_toInt_eq hs
    have hx := x.isLt
    rw [hcode]
    omega
  · rintro ⟨hc, hlow⟩
    refine ⟨(BitVec.ofNat 16 (c / 256)).toInt, isSample_toInt _, ?_⟩
    rw [hcode, BitVec.toNat_ofNat]
    omega

/-! ### Ranges, monotonicity and ties (R113, R114, R117) -/

/-- Settles O36: at a rounding depth the codes run up to that of the greatest sample, with no gap; at the wide depths DQ undoes
Q. -/
theorem quantizerRanges : Obligations.QuantizerRanges := by
  refine ⟨fun n hn => ?_, fun s hs => ?_, fun n rnd hn s s' hs hs' heq => ?_, exists_quantize_sixteen_iff,
    exists_quantize_twentyFour_iff⟩
  · have hM := levels_bounds hn
    refine ⟨fun s hs => ?_, fun c hc => exists_quantize_eq hn .floor ?_, fun s hs => quantize_le_levels hn .nearest hs,
      fun c hc => exists_quantize_eq hn .nearest ?_, fun c hc => ⟨?_, dequantize_eq_dequantRaw_iff hn hc⟩⟩
    · have hlt := quantize_floor_lt_levels hn hs
      omega
    · rw [roundingOffset]
      omega
    · rw [roundingOffset]
      omega
    · rw [dequantize_eq_clamp hn]
      exact isSample_clamp _
  · exact Nat.lt_one_iff.1 (quantize_floor_lt_levels (.inl rfl) hs)
  · rw [← dequantize_quantize_of_isSample hn rnd hs, heq, dequantize_quantize_of_isSample hn rnd hs']

/-- Settles O37: each part of Q and of DQ is monotone; −1 and 0 are the samples whose wide codes are in the wrong order. -/
theorem quantizerIsMonotone : Obligations.QuantizerIsMonotone := by
  refine ⟨fun n rnd hn s s' _ _ h => quantize_mono hn rnd h, fun n hn c c' h _ => dequantize_mono hn h,
    fun n rnd hn => ⟨fun s s' hs hs' h => sext_quantize_mono hn rnd hs hs' h, -1, 0, by decide, by decide, by decide, ?_⟩⟩
  rcases hn with rfl | rfl <;> cases rnd <;> decide

/-- Settles O40: a tie would make an even number odd, and without ties the rounding is unique. -/
theorem dequantHasNoTies : Obligations.DequantHasNoTies :=
  fun _ c hn _ => ⟨normalizedSample_ne_half hn c, fun _ => eq_dequantRaw_of_abs_le hn⟩

/-! ### The round-trip error (R115) -/

/-- R115: the largest round-trip error. -/
def maxError : Nat → Rounding → Nat
  | 1, .floor => 65535
  | 1, .nearest => 32767
  | 2, .floor => 21845
  | 2, .nearest => 10923
  | 4, .floor => 4369
  | 4, .nearest => 2185
  | 8, .floor => 257
  | 8, .nearest => 129
  | _, _ => 0

/-- A sample with the largest error: the last one below a step of FLOOR, a tie of NEAREST. -/
def worstSample : Nat → Rounding → Int
  | 1, .floor => 32767
  | 2, .floor => 10922
  | 4, .floor => 2184
  | 8, .floor => 128
  | _, _ => 0

theorem natAbs_roundTrip_worstSample {n : Nat} (hn : quantDepth n) (rnd : Rounding) :
    isSample (worstSample n rnd) ∧
      (worstSample n rnd - dequantize (quantize (worstSample n rnd) n rnd) n).natAbs = maxError n rnd := by
  rcases hn with rfl | rfl | rfl | rfl | rfl | rfl <;> cases rnd <;> decide

/-- R115 at a rounding depth: the two floor divisions, each off by less than one, and the clamp bound the error. -/
theorem natAbs_roundTrip_le {n : Nat} (hn : roundingDepth n) (rnd : Rounding) {s : Int} (hs : isSample s) :
    (s - dequantize (quantize s n rnd) n).natAbs ≤ maxError n rnd := by
  have hq := cast_quantize hn rnd hs
  rw [dequantize_eq_clamp hn, dequantRaw, clamp]
  rw [quantProduct] at hq
  generalize quantize s n rnd = q at *
  rcases hn with rfl | rfl | rfl | rfl <;> cases rnd <;> simp only [roundingOffset, maxError] at hq ⊢ <;> omega

theorem natAbs_roundTrip_le_maxError {n : Nat} (hn : quantDepth n) (rnd : Rounding) {s : Int} (hs : isSample s) :
    (s - dequantize (quantize s n rnd) n).natAbs ≤ maxError n rnd := by
  rcases (by omega : roundingDepth n ∨ n = 16 ∨ n = 24) with hround | hwide
  · exact natAbs_roundTrip_le hround rnd hs
  · simp [dequantize_quantize_of_isSample hwide rnd hs]

/-- From depth 8 on the largest error is at most one step, exactly as rationals. -/
theorem maxError_le_step {n : Nat} (hn : n = 8 ∨ n = 16 ∨ n = 24) (rnd : Rounding) :
    (maxError n rnd : ℚ) ≤ 65536 / (2 ^ n - 1) := by
  rcases hn with rfl | rfl | rfl <;> cases rnd <;> norm_num [maxError]

/-- Settles O38: the table's entries are the errors of `maxError`, which bounds every sample's and is `worstSample`'s. -/
theorem roundTripErrorBounds : Obligations.RoundTripErrorBounds := by
  refine ⟨fun n rnd bound hmem => ?_, fun n rnd hn s hs => ?_⟩
  · obtain ⟨hn, rfl⟩ : quantDepth n ∧ bound = maxError n rnd := by
      simp only [List.mem_cons, List.not_mem_nil, or_false, Prod.mk.injEq] at hmem
      rcases hmem with h | h | h | h | h | h | h | h | h | h | h | h <;> obtain ⟨rfl, rfl, rfl⟩ := h <;> decide
    exact ⟨fun s hs => natAbs_roundTrip_le_maxError hn rnd hs, _, natAbs_roundTrip_worstSample hn rnd⟩
  · exact (Nat.cast_le.2 (natAbs_roundTrip_le_maxError (by omega) rnd hs)).trans (maxError_le_step hn rnd)

end Sys2Proof.Claims
end

section
/-! SUPPORT. The quantizer's commands (spec/41_quantizer.md R108 to R110, R116): QUANT and DEQUANT as completions that write
RESULT alone, and the depth check of the commands that use CFG.DEPTH. -/

open Sys2Proof Sys2Proof.Machine

namespace Sys2Proof.Claims

/-! ### Completions -/

theorem complete_none_eq_succeed (s : State) : s.complete none = succeed s := by
  rw [State.complete, succeed, responseWord_statusOnComplete_none, statusOnComplete_none]

section

variable {s : State}

theorem exec_quant (hdepth : quantDepth s.depth) (x : BitVec 16) :
    exec (.quant x) s = .next (succeed { s with result := zext24 (quantize x.toInt s.depth s.rounding) }) := by
  rw [exec_eq_succeeded (i := .quant x) hdepth, succeeded, complete_none_eq_succeed]
  rfl

theorem exec_dequant (hdepth : quantDepth s.depth) (c : BitVec 24) :
    exec (.dequant c) s =
      .next (succeed { s with result := pat24 (dequantize (c.toNat % 2 ^ s.depth) s.depth) }) := by
  rw [exec_eq_succeeded (i := .dequant c) hdepth, succeeded, complete_none_eq_succeed]
  rfl

end

/-! ### RESULT's values (R29) -/

theorem zext24_toNat {W : Nat} (p : BitVec W) : zext24 p.toNat = p.setWidth 24 := BitVec.ofNat_toNat 24 p

theorem toNat_zext24 {v : Nat} (h : v < 2 ^ 24) : (zext24 v).toNat = v := by
  rw [zext24, BitVec.toNat_ofNat, Nat.mod_eq_of_lt h]

theorem pat24_eq_ofInt (t : Int) : pat24 t = BitVec.ofInt 24 t := by
  rw [pat24, pat, ← BitVec.toNat_ofInt, BitVec.ofNat_toNat, BitVec.setWidth_eq]

theorem toInt_pat24 {t : Int} (ht : isSample t) : (pat24 t).toInt = t := by
  rw [pat24_eq_ofInt]
  exact BitVec.toInt_ofInt_eq_self (by decide) (by omega) (by omega)

theorem pat24_toInt (x : BitVec 16) : pat24 x.toInt = x.signExtend 24 := pat24_eq_ofInt x.toInt

/-! ### QUANT and DEQUANT at the rounding depths (R101, R102, R105) -/

theorem quantDepth_of_roundingDepth {n : Nat} (h : roundingDepth n) : quantDepth n := by omega

/-- QUANT's completion at a rounding depth, for either rounding mode. -/
theorem exec_quant_rounding {s : State} {rnd : Rounding} (hn : roundingDepth s.depth) (hrnd : s.rounding = rnd)
    (x : BitVec 16) :
    ∃ t, exec (.quant x) s = .next t ∧ t = succeed { s with result := t.result } ∧
      (t.result.toNat : Int) = ⌊normalizedCode x.toInt s.depth + (roundingOffset rnd : ℚ) / 65536⌋ := by
  subst hrnd
  refine ⟨_, exec_quant (quantDepth_of_roundingDepth hn) x, rfl, ?_⟩
  have hcode := quantize_le_levels hn s.rounding (isSample_toInt x)
  have hlevels := levels_bounds hn
  have hresult : (zext24 (quantize x.toInt s.depth s.rounding)).toNat = quantize x.toInt s.depth s.rounding :=
    toNat_zext24 (by omega)
  exact (congrArg Nat.cast hresult).trans (cast_quantize_eq_floor hn _ (isSample_toInt x))

/-- Settles O29: FLOOR is the rounding mode that adds nothing. -/
theorem quantFloorIsTheSourceFormula : Obligations.QuantFloorIsTheSourceFormula := by
  refine ⟨fun s x hn hrnd => ?_, by decide⟩
  have hfloor : s.rounding = .floor := by rw [State.rounding, hrnd]; rfl
  simpa [roundingOffset] using exec_quant_rounding hn hfloor x

/-- Settles O30: NEAREST adds 32768 / 65536 before the floor. -/
theorem quantNearestRoundsTiesUp : Obligations.QuantNearestRoundsTiesUp := by
  refine ⟨fun s x hn hrnd => ?_, by norm_num [normalizedCode], by decide⟩
  have hnearest : s.rounding = .nearest := by rw [State.rounding, hrnd]; rfl
  have hhalf : (roundingOffset .nearest : ℚ) / 65536 = 1 / 2 := by norm_num [roundingOffset]
  rw [← hhalf]
  exact exec_quant_rounding hn hnearest x

/-- Settles O32: the clamped value is a sample, so RESULT's signed reading gives it back. -/
theorem dequantIsTheSourceFormula : Obligations.DequantIsTheSourceFormula := by
  refine ⟨fun s c hn => ⟨_, exec_dequant (quantDepth_of_roundingDepth hn) c, rfl, ?_⟩, by decide, by decide, by decide,
    by decide, ?_⟩
  · rw [round_normalizedSample hn, ← clamp_eq, ← dequantize_eq_clamp hn]
    refine toInt_pat24 ?_
    rw [dequantize_eq_clamp hn]
    exact isSample_clamp _
  · rw [round_normalizedSample (by decide)]
    decide

/-! ### QUANT and DEQUANT at depths 16 and 24 (R103, R104, R106, R107, R116) -/

/-- Settles O31: the code is the sample's pattern, or that above a zero byte. -/
theorem quantPassThroughAndWidening : Obligations.QuantPassThroughAndWidening := by
  refine ⟨fun s x => ⟨fun hdepth => ?_, fun hdepth => ?_⟩, fun rnd => by cases rnd <;> decide⟩
  · rw [exec_quant (by omega), hdepth, quantize_sixteen, zext24_toNat]
  · have hshift : (x ++ 0#8).setWidth 24 = x.setWidth 24 <<< 8 := by
      refine BitVec.eq_of_toNat_eq ?_
      have hx := x.isLt
      rw [BitVec.setWidth_eq, toNat_append_byte, BitVec.toNat_shiftLeft, BitVec.toNat_setWidth, Nat.shiftLeft_eq]
      simp only [BitVec.toNat_ofNat]
      omega
    rw [exec_quant (by omega), hdepth, quantize_twentyFour, zext24_toNat, hshift]

theorem codeBits_sixteen (c : BitVec 24) : c.toNat % 2 ^ 16 = (c.extractLsb' 0 16).toNat := by
  rw [BitVec.extractLsb'_toNat, Nat.shiftRight_zero]

theorem codeBits_twentyFour (c : BitVec 24) : c.toNat % 2 ^ 24 = (c.extractLsb' 8 16 ++ c.extractLsb' 0 8).toNat := by
  rw [toNat_append_byte, BitVec.extractLsb'_toNat, BitVec.extractLsb'_toNat]
  omega

/-- Settles O33: the code's bits are a sample's pattern, or that and a low byte. -/
theorem dequantOfWideCodes : Obligations.DequantOfWideCodes := by
  refine ⟨fun s c => ⟨fun hdepth => ?_, fun hdepth => ?_⟩, by decide⟩
  · rw [exec_dequant (by omega), hdepth, codeBits_sixteen, dequantize_sixteen, pat24_toInt]
  · rw [exec_dequant (by omega), hdepth, codeBits_twentyFour, dequantize_twentyFour, pat24_toInt]

/-- Settles O39: the code QUANT leaves in RESULT is within the depth's bits, so DEQUANT takes it whole. -/
theorem exactRoundTripAtWideDepths : Obligations.ExactRoundTripAtWideDepths := by
  intro s x hwide
  have hdepth : quantDepth s.depth := by omega
  have hlt := quantize_wide_lt hwide s.rounding x
  have hpow : 2 ^ s.depth ≤ 2 ^ 24 := Nat.pow_le_pow_right (by decide) (by omega)
  refine ⟨_, _, exec_quant hdepth x, exec_dequant (by exact hdepth) _, ?_⟩
  change pat24 (dequantize ((zext24 (quantize x.toInt s.depth s.rounding)).toNat % 2 ^ s.depth) s.depth) = _
  rw [toNat_zext24 (by omega), Nat.mod_eq_of_lt hlt, dequantize_quantize_wide hwide, pat24_toInt]

/-! ### The depth check (R22, R108, R162) -/

section

variable {s : State}

theorem packing_unsupportedDepth (h : ¬ packDepth s.depth) (c : BitVec 24) :
    FailsWith .unsupportedDepth (.pack c) s ∧ FailsWith .unsupportedDepth .unpack s :=
  ⟨failsWith_of_raise (if_pos h), failsWith_of_raise (if_pos h)⟩

theorem quantizing_unsupportedDepth (h : ¬ quantDepth s.depth) (x : BitVec 16) (c : BitVec 24) :
    FailsWith .unsupportedDepth (.quant x) s ∧ FailsWith .unsupportedDepth (.dequant c) s ∧
      FailsWith .unsupportedDepth (.qpack x) s ∧ FailsWith .unsupportedDepth .unpackdq s :=
  ⟨failsWith_of_raise (if_pos h), failsWith_of_raise (if_pos h), failsWith_of_raise (if_pos h),
    failsWith_of_raise (if_pos h)⟩

end

/-- RDREG of CFG gives CFG, in any state (R137). -/
theorem exec_rdreg_cfg (s : State) : exec (.rdreg 0#4) s = .next (succeed { s with result := s.cfg.setWidth 24 }) := by
  rw [exec_eq_succeeded (i := .rdreg 0#4) (by decide : registerLegal 0#4 = true), succeeded, complete_none_eq_succeed]
  rfl

/-- Settles O41: the depth check is each command's first branch. -/
theorem unsupportedDepthIsRaised : Obligations.UnsupportedDepthIsRaised := by
  refine ⟨fun s c h => packing_unsupportedDepth h c, fun s x c h => quantizing_unsupportedDepth (by simpa using h) x c,
    fun s x _ hdepth hfit => ⟨?_, ?_⟩, fun s => exec_rdreg_cfg _⟩
  · exact (quantizing_unsupportedDepth (by omega) x 0#24).1
  · have hpack : accepts (.pack 1#24) s := ⟨by omega, by rwa [hdepth]⟩
    exact ⟨_, exec_eq_succeeded hpack, lastErr_statusOnComplete none _⟩

end Sys2Proof.Claims
end

section
/-! SUPPORT. The errors of the block (spec/60_exceptions.md R160 to R168): the words the decoder refuses, each check of a
command with the error it reports, and what a command word that completes leaves. -/

open Sys2Proof Sys2Proof.Machine

namespace Sys2Proof.Claims

/-! ### The operand bits of a legal word (R62 to R68) -/

section

variable {imm : Imm} {j : Instr}

/-- A field at the top of an IMM's bits that holds 0 leaves the bits below it. -/
theorem toNat_lt_of_topField_eq_zero {k n : Nat} (hlt : imm.toNat < 2 ^ (k + n)) (h : imm.extractLsb' k n = 0#n) :
    imm.toNat < 2 ^ k := by
  have hfield : imm.toNat / 2 ^ k < 2 ^ n := Nat.div_lt_of_lt_mul (Nat.pow_add 2 k n ▸ hlt)
  have hzero : imm.toNat / 2 ^ k % 2 ^ n = 0 := by
    rw [← Nat.shiftRight_eq_div_pow, ← BitVec.extractLsb'_toNat, h, BitVec.toNat_ofNat, Nat.zero_mod]
  rw [Nat.mod_eq_of_lt hfield] at hzero
  exact (Nat.div_eq_zero_iff_lt (Nat.two_pow_pos k)).1 hzero

theorem formatN_ok {i : Instr} (h : formatN i imm = .ok j) : imm = 0#24 := by
  unfold formatN at h
  split at h
  · assumption
  · cases h

theorem formatC_ok {f : BitVec 5 → BitVec 2 → Instr} (h : formatC f imm = .ok j) : imm.toNat < 2 ^ 6 := by
  unfold formatC at h
  split at h
  · cases h
  · next h7 =>
    split at h
    · cases h
    · next h6 =>
      have hlt : imm.toNat < 2 ^ 7 := toNat_lt_of_topField_eq_zero imm.isLt (not_not.1 h7)
      exact toNat_lt_of_topField_eq_zero hlt (not_not.1 h6)

theorem formatS_ok {f : BitVec 16 → Instr} (h : formatS f imm = .ok j) : imm.toNat < 2 ^ 16 := by
  unfold formatS at h
  split at h
  · cases h
  · next h16 => exact toNat_lt_of_topField_eq_zero imm.isLt (not_not.1 h16)

theorem formatL_ok {f : BitVec 17 → Instr} (h : formatL f imm = .ok j) : imm.toNat < 2 ^ 17 := by
  unfold formatL at h
  split at h
  · cases h
  · next h17 => exact toNat_lt_of_topField_eq_zero imm.isLt (not_not.1 h17)

/-- Format A reserves the bits of format S. -/
theorem formatA_ok {f : BitVec 16 → Instr} (h : formatA f imm = .ok j) : imm.toNat < 2 ^ 16 := formatS_ok h

theorem formatR_ok {f : BitVec 4 → Instr} (h : formatR f imm = .ok j) : imm.toNat < 2 ^ 3 := by
  unfold formatR at h
  split at h
  · cases h
  · next h4 =>
    split at h
    · cases h
    · next h3 =>
      have hlt : imm.toNat < 2 ^ 4 := toNat_lt_of_topField_eq_zero imm.isLt (not_not.1 h4)
      exact toNat_lt_of_topField_eq_zero hlt (not_not.1 h3)

/-- An IMM below `2 ^ k` meets no mask of bits from `k` up. -/
theorem and_highMask_eq_zero {k : Nat} (h : imm.toNat < 2 ^ k) : imm &&& BitVec.allOnes 24 <<< k = 0#24 := by
  refine BitVec.eq_of_getLsbD_eq fun b hb => ?_
  rw [BitVec.getLsbD_and, BitVec.getLsbD_shiftLeft, BitVec.getLsbD_zero]
  by_cases hbk : b < k
  · simp [hbk]
  · rw [BitVec.getLsbD, Nat.testBit_lt_two_pow (h.trans_le (Nat.pow_le_pow_right Nat.two_pos (Nat.le_of_not_lt hbk))),
      Bool.false_and]

/-- R62: what decodes has none of the reserved IMM bits of its opcode's format. -/
theorem reservedImm_of_decodeOp_ok {op : BitVec 4} (h : decodeOp op.toNat imm = .ok j) :
    imm &&& reservedImm op = 0#24 := by
  unfold decodeOp at h
  split at h <;> rename_i hop <;> simp only [reservedImm, hop]
  case h_1 | h_6 | h_8 | h_9 | h_10 | h_15 => rw [formatN_ok h, BitVec.zero_and]
  case h_2 => exact and_highMask_eq_zero (formatC_ok h)
  case h_3 | h_7 => exact and_highMask_eq_zero (formatS_ok h)
  case h_4 | h_5 | h_12 => exact BitVec.and_zero
  case h_11 => exact and_highMask_eq_zero (formatL_ok h)
  case h_13 => exact and_highMask_eq_zero (formatA_ok h)
  case h_14 => exact and_highMask_eq_zero (k := 4) ((formatR_ok h).trans (by decide))
  case h_16 => cases h

end

theorem decode_ok {w : Word} {i : Instr} (h : decode w = .ok i) :
    opField w ≠ 0xF#4 ∧ rsvField w = 0#4 ∧ decodeOp (opField w).toNat (immField w) = .ok i := by
  unfold decode at h
  split at h
  · cases h
  · next hop =>
    split at h
    · cases h
    · next hrsv => exact ⟨hop, not_not.1 hrsv, h⟩

theorem toNat_immField (w : Word) : (immField w).toNat = w.toNat % 2 ^ 24 := by
  rw [immField, BitVec.extractLsb'_toNat, Nat.shiftRight_zero]

/-- R131: a CFG word that decodes has RND 0 or 1. -/
theorem rnd_lt_of_decode_ok {w : Word} {i : Instr} (h : decode w = .ok i) (hop : opField w = 0x1#4) :
    (w.extractLsb' 5 2).toNat < 2 := by
  obtain ⟨-, -, hdec⟩ := decode_ok h
  rw [hop] at hdec
  have himm : (immField w).toNat < 2 ^ 6 := formatC_ok hdec
  rw [toNat_immField] at himm
  rw [BitVec.extractLsb'_toNat, Nat.shiftRight_eq_div_pow]
  omega

/-- R137: an RDREG word that decodes has REG 0 to 7. -/
theorem reg_lt_of_decode_ok {w : Word} {i : Instr} (h : decode w = .ok i) (hop : opField w = 0xD#4) :
    (w.extractLsb' 0 4).toNat < 8 := by
  obtain ⟨-, -, hdec⟩ := decode_ok h
  rw [hop] at hdec
  have himm : (immField w).toNat < 2 ^ 3 := formatR_ok hdec
  rw [toNat_immField] at himm
  rw [BitVec.extractLsb'_toNat, Nat.shiftRight_zero]
  omega

/-! ### Illegal words (R166) -/

theorem runWord_illegal {w : Word} {r : Illegal} (h : decode w = .error r) (s : State) :
    runWord w s = .next (failed .illegalCommand s) := by
  rw [runWord_error h, raise_eq, complete_some_eq_failed]

/-- Settles O7: a word that decodes has none of the five causes, so a word with one is refused. -/
theorem illegalWordsEndWithIllegalCommand : Obligations.IllegalWordsEndWithIllegalCommand := by
  intro s w rest hpending hill
  cases hw : decode w with
  | error r => exact (step_issue hpending).trans (runWord_illegal hw _)
  | ok i =>
    obtain ⟨hop, hrsv, hdec⟩ := decode_ok hw
    rcases hill with h | h | h | ⟨hcfg, h⟩ | ⟨hrdreg, h⟩
    · exact absurd h hop
    · exact absurd hrsv h
    · exact absurd (reservedImm_of_decodeOp_ok hdec) h
    · exact absurd (rnd_lt_of_decode_ok hw hcfg) (Nat.not_lt.2 h)
    · exact absurd (reg_lt_of_decode_ok hw hrdreg) (Nat.not_lt.2 h)

/-! ### The range checks (R163 to R165) -/

theorem quantDepth_iff_mem (n : Nat) : quantDepth n ↔ n ∈ [1, 2, 4, 8, 16, 24] := by simp

section

variable {s : State}

theorem unpack_truncatedStream (hdepth : packDepth s.depth) (h : 8 * s.len.toNat < s.rbit.toNat + s.depth) :
    FailsWith .truncatedStream .unpack s :=
  failsWith_of_raise (exec_unpack_truncated hdepth h)

theorem unpackdq_truncatedStream (hdepth : quantDepth s.depth) (h : 8 * s.len.toNat < s.rbit.toNat + s.depth) :
    FailsWith .truncatedStream .unpackdq s :=
  failsWith_of_raise (by rw [exec, execUnpackdq, if_neg (not_not.2 hdepth), unpackWith, if_pos h])

theorem pack_bufferOverflow (hdepth : packDepth s.depth) (h : 8 * s.bufBytes < s.wbit.toNat + s.depth)
    (code : BitVec 24) : FailsWith .bufferOverflow (.pack code) s :=
  failsWith_of_raise (by rw [exec, execPack, if_neg (not_not.2 hdepth), if_pos h])

theorem qpack_bufferOverflow (hdepth : quantDepth s.depth) (h : 8 * s.bufBytes < s.wbit.toNat + s.depth)
    (sample : BitVec 16) : FailsWith .bufferOverflow (.qpack sample) s :=
  failsWith_of_raise (by rw [exec, execQpack, if_neg (not_not.2 hdepth), if_pos h])

theorem wrbyte_addressRange {addr : BitVec 16} (h : s.bufBytes ≤ addr.toNat) (data : BitVec 8) :
    FailsWith .addressRange (.wrbyte addr data) s :=
  failsWith_of_raise (if_pos h)

theorem rdbyte_addressRange {addr : BitVec 16} (h : s.bufBytes ≤ addr.toNat) :
    FailsWith .addressRange (.rdbyte addr) s :=
  failsWith_of_raise (if_pos h)

theorem setlen_addressRange {value : BitVec 17} (h : s.bufBytes < value.toNat) :
    FailsWith .addressRange (.setlen value) s :=
  failsWith_of_raise (if_pos h)

end

/-- RDREG of a register's number gives the register, in any state (R137). -/
theorem exec_rdreg_of_readReg {s : State} {reg : BitVec 4} {v : Data} (h : readReg s reg = some v) :
    exec (.rdreg reg) s = .next (succeed { s with result := v }) := by
  rw [exec, execRdreg, h, ← complete_none_eq_succeed]
  rfl

/-- Settles O42: past the depth check LEN is the first check of the shared read, and the error leaves RBIT for RDREG. -/
theorem truncatedStreamIsRaised : Obligations.TruncatedStreamIsRaised :=
  fun _ h => ⟨fun hdepth => unpack_truncatedStream hdepth h,
    fun hmem => unpackdq_truncatedStream ((quantDepth_iff_mem _).2 hmem) h, exec_rdreg_of_readReg rfl⟩

/-- Settles O43: past the depth check the room in BUF is the one check of either command. -/
theorem bufferOverflowIsRaised : Obligations.BufferOverflowIsRaised :=
  fun _ code sample h => ⟨fun hdepth => pack_bufferOverflow hdepth h code,
    fun hmem => qpack_bufferOverflow ((quantDepth_iff_mem _).2 hmem) h sample⟩

/-- Settles O44: the range check is each command's first branch. -/
theorem addressRangeIsRaised : Obligations.AddressRangeIsRaised :=
  fun _ _ data _ => ⟨fun h => ⟨wrbyte_addressRange h data, rdbyte_addressRange h⟩, setlen_addressRange⟩

/-! ### The order of the checks (R168) -/

theorem runWord_of_failsWith {e : CmdError} {w : Word} {i : Instr} {s : State} (hw : decode w = .ok i)
    (h : FailsWith e i s) : runWord w s = .next (failed e s) :=
  (runWord_ok hw s).trans h

/-- R168 item 2, for the bit packer's commands. -/
theorem runWord_packing_unsupportedDepth {w : Word} {s : State}
    (hw : decode w = .ok .unpack ∨ ∃ c, decode w = .ok (.pack c)) (hdepth : ¬ packDepth s.depth) :
    runWord w s = .next (failed .unsupportedDepth s) := by
  rcases hw with hw | ⟨c, hw⟩
  · exact runWord_of_failsWith hw (packing_unsupportedDepth hdepth 0#24).2
  · exact runWord_of_failsWith hw (packing_unsupportedDepth hdepth c).1

/-- R168 item 2, for the quantizer's commands. -/
theorem runWord_quantizing_unsupportedDepth {w : Word} {s : State}
    (hw : decode w = .ok .unpackdq ∨ (∃ x, decode w = .ok (.qpack x)) ∨ (∃ x, decode w = .ok (.quant x)) ∨
      ∃ c, decode w = .ok (.dequant c))
    (hdepth : ¬ quantDepth s.depth) : runWord w s = .next (failed .unsupportedDepth s) := by
  have hfails := quantizing_unsupportedDepth hdepth
  rcases hw with hw | ⟨x, hw⟩ | ⟨x, hw⟩ | ⟨c, hw⟩
  · obtain ⟨-, -, -, hunpackdq⟩ := hfails 0#16 0#24
    exact runWord_of_failsWith hw hunpackdq
  · obtain ⟨-, -, hqpack, -⟩ := hfails x 0#24
    exact runWord_of_failsWith hw hqpack
  · obtain ⟨hquant, -, -, -⟩ := hfails x 0#24
    exact runWord_of_failsWith hw hquant
  · obtain ⟨-, hdequant, -, -⟩ := hfails 0#16 c
    exact runWord_of_failsWith hw hdequant

/-- Settles O46: each clause is the word's decoding and the command's own check; the last is the second at depth 0. -/
theorem errorPriority : Obligations.ErrorPriority := by
  refine ⟨fun w s r hw => runWord_illegal hw s, fun w s => runWord_packing_unsupportedDepth,
    fun w s hw hdepth => runWord_quantizing_unsupportedDepth hw (mt (quantDepth_iff_mem _).1 hdepth),
    fun w s hw h => ?_, fun w s hw h => ?_, fun w s hw => ?_,
    fun s hdepth _ => runWord_packing_unsupportedDepth (.inl (by decide)) (by omega)⟩
  · rcases hw with ⟨hw, hdepth⟩ | ⟨hw, hmem⟩
    · exact runWord_of_failsWith hw (unpack_truncatedStream hdepth h)
    · exact runWord_of_failsWith hw (unpackdq_truncatedStream ((quantDepth_iff_mem _).2 hmem) h)
  · rcases hw with ⟨⟨c, hw⟩, hdepth⟩ | ⟨⟨x, hw⟩, hmem⟩
    · exact runWord_of_failsWith hw (pack_bufferOverflow hdepth h c)
    · exact runWord_of_failsWith hw (qpack_bufferOverflow ((quantDepth_iff_mem _).2 hmem) h x)
  · rcases hw with ⟨a, d, hw, h⟩ | ⟨a, hw, h⟩ | ⟨v, hw, h⟩
    · exact runWord_of_failsWith hw (wrbyte_addressRange h d)
    · exact runWord_of_failsWith hw (rdbyte_addressRange h)
    · exact runWord_of_failsWith hw (setlen_addressRange h)

/-! ### What completes, and with what (R160, R167) -/

/-- A nonzero LASTERR is that of an error raised in the state before the word. -/
theorem runWord_next_error {w : Word} {s t : State} (h : runWord w s = .next t) (herr : lastErr t.status ≠ 0#3) :
    ∃ e, t = s.complete (some e) := by
  cases hw : decode w with
  | error r =>
    rw [runWord_error hw, raise_eq] at h
    exact ⟨.illegalCommand, (Host.Outcome.next.inj h).symm⟩
  | ok i =>
    rw [runWord_ok hw] at h
    rcases exec_next h with ⟨_, rfl⟩ | ⟨_, e, ht⟩
    · exact absurd (lastErr_statusOnComplete none _) herr
    · exact ⟨e, ht⟩

/-- Settles O45: an error's completion writes STATUS and the response alone. -/
theorem errorsChangeOnlyStatus : Obligations.ErrorsChangeOnlyStatus := by
  intro w s t h herr
  obtain ⟨e, rfl⟩ := runWord_next_error h herr
  rfl

/-- R28: with LEN inside BUF no command faults. -/
theorem exec_completes (i : Instr) {s : State} (hlen : s.len.toNat ≤ s.bufBytes) : ∃ t, exec i s = .next t := by
  rcases exec_cases i s with ⟨_, h⟩ | ⟨_, e, h⟩ | ⟨_, hout, _⟩
  · exact ⟨_, h⟩
  · exact ⟨_, h⟩
  · exact absurd hlen (Nat.not_le.2 hout)

theorem runWord_completes (w : Word) {s : State} (hlen : s.len.toNat ≤ s.bufBytes) : ∃ t, runWord w s = .next t := by
  cases hw : decode w with
  | error r => exact ⟨_, runWord_error hw s⟩
  | ok i => rw [runWord_ok hw]; exact exec_completes i hlen

/-- R24: the sticky bit of the error a completion reports is set. -/
theorem sticky_complete_some (s : State) (e : CmdError) :
    (s.complete (some e)).status.getLsbD ((errorCode e).toNat + 2) = true := by
  have hlast : lastErr (s.complete (some e)).status = errorCode e := lastErr_statusOnComplete ..
  obtain ⟨-, hsticky⟩ := statusLegal_complete s (some e)
  rw [hlast] at hsticky
  exact hsticky (by cases e <;> decide)

/-- Settles O53: the word completes because LEN is inside BUF, and its one completion reports in the three places. -/
theorem everyCommandCompletes : Obligations.EveryCommandCompletes := by
  intro w s hinv
  obtain ⟨-, -, hlen⟩ := hinv.cursors
  obtain ⟨t, ht⟩ := runWord_completes w hlen
  obtain ⟨u, e, hu, rfl⟩ := runWord_next_complete ht
  have hlast : lastErr (statusOnComplete e u.status) = (e.map errorCode).getD 0#3 := lastErr_statusOnComplete ..
  refine ⟨u.complete e, e, ht, hlast, ?_, ?_⟩
  · rw [State.complete_responses, responseWord, hlast, hu, State.complete_result]
  · rintro e' rfl
    exact sticky_complete_some u e'

end Sys2Proof.Claims
end

section
/-! SUPPORT. The decoder and the encoder (spec/30_encoding.md R60 to R72): what each format accepts, the round trip of words
and commands, and the legal words as the words of the opcode table. -/

open Sys2Proof Sys2Proof.Machine

namespace Sys2Proof.Claims

/-! ### What each format accepts (R62 to R68) -/

/-- A bit vector is the concatenation of two parts exactly if they are its fields. -/
theorem eq_append_iff {n k : Nat} (x : BitVec (n + k)) (hi : BitVec n) (lo : BitVec k) :
    x = hi ++ lo ↔ x.extractLsb' k n = hi ∧ x.extractLsb' 0 k = lo := by
  constructor
  · rintro rfl
    exact ⟨BitVec.extractLsb'_append_eq_left, BitVec.extractLsb'_append_eq_right⟩
  · rintro ⟨rfl, rfl⟩
    exact BitVec.extractLsb'_append_extractLsb'.symm

/-- A field of a field. -/
theorem extractLsb'_extractLsb' {W a m b n : Nat} (x : BitVec W) (h : b + n ≤ m) :
    (x.extractLsb' a m).extractLsb' b n = x.extractLsb' (a + b) n := by
  refine BitVec.eq_of_getLsbD_eq fun i hi => ?_
  simp [hi, show b + i < m by omega, Nat.add_assoc]

section

variable {imm : Imm} {j : Instr}

theorem formatN_eq_ok_iff {i : Instr} : formatN i imm = .ok j ↔ imm = 0#24 ∧ j = i := by
  unfold formatN
  split
  · next h => simp [h, eq_comm]
  · next h => simp [h]

/-- The shape of the formats S, A and L: `n` reserved bits above an operand of `k` bits. -/
theorem operandField_eq_ok_iff {n k : Nat} (f : BitVec k → Instr) (x : BitVec (n + k)) :
    (if x.extractLsb' k n ≠ 0#n then Except.error Illegal.reservedImm else .ok (f (x.extractLsb' 0 k))) = .ok j ↔
      ∃ v, x = 0#n ++ v ∧ j = f v := by
  simp only [eq_append_iff]
  split
  · next h => simp [h]
  · next h => simp [not_not.1 h, eq_comm]

theorem formatS_eq_ok_iff {f : BitVec 16 → Instr} : formatS f imm = .ok j ↔ ∃ x, imm = 0#8 ++ x ∧ j = f x :=
  operandField_eq_ok_iff (n := 8) f imm

theorem formatA_eq_ok_iff {f : BitVec 16 → Instr} : formatA f imm = .ok j ↔ ∃ x, imm = 0#8 ++ x ∧ j = f x :=
  formatS_eq_ok_iff

theorem formatL_eq_ok_iff {f : BitVec 17 → Instr} : formatL f imm = .ok j ↔ ∃ x, imm = 0#7 ++ x ∧ j = f x :=
  operandField_eq_ok_iff (n := 7) f imm

theorem formatK_eq_ok_iff {f : BitVec 24 → Instr} : formatK f imm = .ok j ↔ j = f imm := by
  simp [formatK, eq_comm]

theorem formatW_eq_ok_iff {f : BitVec 16 → BitVec 8 → Instr} :
    formatW f imm = .ok j ↔ ∃ a d, imm = a ++ d ∧ j = f a d := by
  simp only [eq_append_iff (n := 16) (k := 8) imm]
  simp [formatW, eq_comm]

theorem formatC_eq_ok_iff {f : BitVec 5 → BitVec 2 → Instr} :
    formatC f imm = .ok j ↔ ∃ d r, roundingLegal r = true ∧ imm = 0#17 ++ r ++ d ∧ j = f d r := by
  have hlegal : roundingLegal (imm.extractLsb' 5 2) = true ↔ imm.extractLsb' 6 1 = 0#1 := by
    have hbit : imm.extractLsb' 6 1 = (imm.extractLsb' 5 2).extractLsb' 1 1 :=
      (extractLsb'_extractLsb' (b := 1) (m := 2) imm (by decide)).symm
    rw [hbit]
    generalize imm.extractLsb' 5 2 = r
    revert r
    decide
  have hfields : ∀ d r, imm = 0#17 ++ r ++ d ↔
      imm.extractLsb' 7 17 = 0#17 ∧ imm.extractLsb' 5 2 = r ∧ imm.extractLsb' 0 5 = d := by
    intro d r
    rw [eq_append_iff (n := 19) (k := 5) imm, eq_append_iff (n := 17) (k := 2), extractLsb'_extractLsb' _ (by decide),
      extractLsb'_extractLsb' _ (by decide), and_assoc]
  simp only [hfields]
  unfold formatC
  split
  · next h => simp [h]
  · next h =>
    split
    · next h' => simp [mt hlegal.1 h']
    · next h' => simp [not_not.1 h, hlegal.2 (not_not.1 h'), eq_comm]

theorem formatR_eq_ok_iff {f : BitVec 4 → Instr} :
    formatR f imm = .ok j ↔ ∃ r, registerLegal r = true ∧ imm = 0#20 ++ r ∧ j = f r := by
  have hlegal : registerLegal (imm.extractLsb' 0 4) = true ↔ imm.extractLsb' 3 1 = 0#1 := by
    have hbit : imm.extractLsb' 3 1 = (imm.extractLsb' 0 4).extractLsb' 3 1 :=
      (BitVec.extractLsb'_extractLsb'_of_le (by decide)).symm
    rw [hbit]
    generalize imm.extractLsb' 0 4 = r
    revert r
    decide
  simp only [eq_append_iff (n := 20) (k := 4) imm]
  unfold formatR
  split
  · next h => simp [h]
  · next h =>
    split
    · next h' => simp [mt hlegal.1 h']
    · next h' => simp [not_not.1 h, hlegal.2 (not_not.1 h'), eq_comm]

end

/-! ### The round trip (R60 to R72) -/

theorem decode_wordOf {op : BitVec 4} (hop : op ≠ 0xF#4) (imm : Imm) :
    decode (wordOf op imm) = decodeOp op.toNat imm := by
  simp [decode, hop]

/-- Settles O1: each command's IMM is one its format accepts, with the command's own operands. -/
theorem decodeOfEncodeGivesTheCommand : Obligations.DecodeOfEncodeGivesTheCommand := by
  intro i hwf
  cases i <;> refine (decode_wordOf (by decide) _).trans ?_
  case nop | unpack | unpackdq | pclr | rclr | errclr => exact formatN_eq_ok_iff.2 ⟨rfl, rfl⟩
  case cfg d r => exact formatC_eq_ok_iff.2 ⟨d, r, hwf, rfl, rfl⟩
  case quant x | qpack x => exact formatS_eq_ok_iff.2 ⟨x, rfl, rfl⟩
  case dequant c | pack c => exact formatK_eq_ok_iff.2 rfl
  case setlen v => exact formatL_eq_ok_iff.2 ⟨v, rfl, rfl⟩
  case wrbyte a d => exact formatW_eq_ok_iff.2 ⟨a, d, rfl, rfl⟩
  case rdbyte a => exact formatA_eq_ok_iff.2 ⟨a, rfl, rfl⟩
  case rdreg r => exact formatR_eq_ok_iff.2 ⟨r, hwf, rfl, rfl⟩

/-- What an opcode's format accepts is a well-formed command with that opcode and that IMM. -/
theorem encode_of_decodeOp {op : Nat} {imm : Imm} {i : Instr} (h : decodeOp op imm = .ok i) :
    encode i = wordOf (BitVec.ofNat 4 op) imm ∧ i.wf = true := by
  unfold decodeOp at h
  split at h
  case h_1 | h_6 | h_8 | h_9 | h_10 | h_15 =>
    obtain ⟨rfl, rfl⟩ := formatN_eq_ok_iff.1 h
    exact ⟨rfl, rfl⟩
  case h_2 =>
    obtain ⟨d, r, hr, rfl, rfl⟩ := formatC_eq_ok_iff.1 h
    exact ⟨rfl, hr⟩
  case h_3 | h_7 =>
    obtain ⟨x, rfl, rfl⟩ := formatS_eq_ok_iff.1 h
    exact ⟨rfl, rfl⟩
  case h_4 | h_5 =>
    obtain rfl := formatK_eq_ok_iff.1 h
    exact ⟨rfl, rfl⟩
  case h_11 =>
    obtain ⟨v, rfl, rfl⟩ := formatL_eq_ok_iff.1 h
    exact ⟨rfl, rfl⟩
  case h_12 =>
    obtain ⟨a, d, rfl, rfl⟩ := formatW_eq_ok_iff.1 h
    exact ⟨rfl, rfl⟩
  case h_13 =>
    obtain ⟨a, rfl, rfl⟩ := formatA_eq_ok_iff.1 h
    exact ⟨rfl, rfl⟩
  case h_14 =>
    obtain ⟨r, hr, rfl, rfl⟩ := formatR_eq_ok_iff.1 h
    exact ⟨rfl, hr⟩
  case h_16 => cases h

/-- Settles O2: the word is that of its OP and its IMM, for its RSV is 0. -/
theorem encodeOfDecodeGivesTheWord : Obligations.EncodeOfDecodeGivesTheWord := by
  intro w i h
  obtain ⟨-, hrsv, hdec⟩ := decode_ok h
  obtain ⟨henc, hwf⟩ := encode_of_decodeOp hdec
  rw [henc, BitVec.ofNat_toNat, BitVec.setWidth_eq]
  exact ⟨wordOf_fields hrsv, hwf⟩

/-! ### The legal words (R72) -/

/-- A field that the mask covers is that of the masked word. -/
theorem extractLsb'_eq_of_and_eq {W k n : Nat} {x m b : BitVec W} (h : x &&& m = b)
    (hm : m.extractLsb' k n = BitVec.allOnes n) : x.extractLsb' k n = b.extractLsb' k n := by
  rw [← h, BitVec.extractLsb'_and, hm, BitVec.and_allOnes]

theorem extractLsb'_eq_zero_iff_getLsbD {W : Nat} (x : BitVec W) (k : Nat) :
    x.extractLsb' k 1 = 0#1 ↔ x.getLsbD k = false := by
  rw [BitVec.getLsbD_eq_extractLsb']
  generalize x.extractLsb' k 1 = bit
  revert bit
  decide

/-- R72: an IMM with no reserved bit set, and with REG below 8 for RDREG, decodes. -/
theorem decodeOp_ok_of_reservedImm {op : BitVec 4} {imm : Imm} (hop : op ≠ 0xF#4) (h : imm &&& reservedImm op = 0#24)
    (hreg : op = 0xD#4 → imm.extractLsb' 3 1 = 0#1) : ∃ i, decodeOp op.toNat imm = .ok i := by
  unfold decodeOp
  split <;> rename_i hnum <;> simp only [reservedImm, hnum] at h
  case h_1 | h_6 | h_8 | h_9 | h_10 | h_15 =>
    have hall : imm &&& BitVec.allOnes 24 = 0#24 := h
    exact ⟨_, formatN_eq_ok_iff.2 ⟨BitVec.and_allOnes.symm.trans hall, rfl⟩⟩
  case h_2 =>
    have hhigh : imm.extractLsb' 7 17 = 0#17 := extractLsb'_eq_of_and_eq h (by decide)
    have hrnd : imm.extractLsb' 6 1 = 0#1 := extractLsb'_eq_of_and_eq h (by decide)
    exact ⟨_, (if_neg (not_not.2 hhigh)).trans (if_neg (not_not.2 hrnd))⟩
  case h_3 | h_7 | h_11 | h_13 => exact ⟨_, if_neg (not_not.2 (extractLsb'_eq_of_and_eq h (by decide)))⟩
  case h_4 | h_5 | h_12 => exact ⟨_, rfl⟩
  case h_14 =>
    have hhigh : imm.extractLsb' 4 20 = 0#20 := extractLsb'_eq_of_and_eq h (by decide)
    exact ⟨_, (if_neg (not_not.2 hhigh)).trans (if_neg (not_not.2 (hreg (BitVec.eq_of_toNat_eq hnum))))⟩
  case h_16 =>
    have hfifteen : op.toNat = 15 := by
      have hlt := op.isLt
      simp only [imp_false] at *
      omega
    exact absurd (BitVec.eq_of_toNat_eq hfifteen) hop

/-- R72: the conditions on the fields are enough. -/
theorem decodes_of_conditions {w : Word} (hop : opField w ≠ 0xF#4) (hrsv : rsvField w = 0#4)
    (h : immField w &&& reservedImm (opField w) = 0#24) (hreg : opField w = 0xD#4 → w.getLsbD 3 = false) :
    ∃ i, decode w = .ok i := by
  have hdecode : decode w = decodeOp (opField w).toNat (immField w) := by
    rw [← decode_wordOf hop, wordOf_fields hrsv]
  rw [hdecode]
  refine decodeOp_ok_of_reservedImm hop h fun hrdreg => ?_
  rw [immField, extractLsb'_extractLsb' w (by decide), extractLsb'_eq_zero_iff_getLsbD]
  exact hreg hrdreg

/-- R71, R72: the row of an opcode pins the bits that its format reserves, and RSV, to 0. -/
theorem opcodeRow_pins (op : BitVec 4) : ∀ row ∈ opcodeRow op,
    op ≠ 0xF#4 ∧ rsvField row.mask = BitVec.allOnes 4 ∧ rsvField row.base = 0#4 ∧
    immField row.mask &&& reservedImm op = reservedImm op ∧ immField row.base = 0#24 ∧
    (op = 0xD#4 → row.mask.extractLsb' 3 1 = 1#1) := by
  revert op
  decide

/-- R72: a word in the row of its OP meets the conditions on the fields. -/
theorem conditions_of_row {w : Word} {row : OpcodeRow} (hrow : opcodeRow (opField w) = some row)
    (h : w &&& row.mask = row.base) :
    opField w ≠ 0xF#4 ∧ rsvField w = 0#4 ∧ immField w &&& reservedImm (opField w) = 0#24 ∧
      (opField w = 0xD#4 → w.getLsbD 3 = false) := by
  obtain ⟨hop, hrsv, hrsv0, himm, himm0, hreg⟩ := opcodeRow_pins _ row hrow
  have hbase : immField w &&& immField row.mask = 0#24 := by
    rw [← himm0, ← h]
    exact BitVec.extractLsb'_and.symm
  refine ⟨hop, (extractLsb'_eq_of_and_eq h hrsv).trans hrsv0, ?_, fun hrdreg => ?_⟩
  · rw [← himm, ← BitVec.and_assoc, hbase, BitVec.zero_and]
  · rw [← extractLsb'_eq_zero_iff_getLsbD, extractLsb'_eq_of_and_eq h (hreg hrdreg)]
    have hzero : (immField row.base).extractLsb' 3 1 = 0#1 := by rw [himm0]; decide
    rwa [immField, extractLsb'_extractLsb' _ (by decide)] at hzero

/-- R72, for every command. -/
theorem rowMatch : ∀ i, Laws.RowMatch.Statement i
  | .nop => Laws.RowMatch.nop
  | .cfg d r => Laws.RowMatch.cfg d r
  | .quant x => Laws.RowMatch.quant x
  | .dequant c => Laws.RowMatch.dequant c
  | .pack c => Laws.RowMatch.pack c
  | .unpack => Laws.RowMatch.unpack
  | .qpack x => Laws.RowMatch.qpack x
  | .unpackdq => Laws.RowMatch.unpackdq
  | .pclr => Laws.RowMatch.pclr
  | .rclr => Laws.RowMatch.rclr
  | .setlen v => Laws.RowMatch.setlen v
  | .wrbyte a d => Laws.RowMatch.wrbyte a d
  | .rdbyte a => Laws.RowMatch.rdbyte a
  | .rdreg r => Laws.RowMatch.rdreg r
  | .errclr => Laws.RowMatch.errclr

/-- R72: the word of a command matches the row of its OP. -/
theorem row_of_decode {w : Word} {i : Instr} (h : decode w = .ok i) :
    ∃ row, opcodeRow (opField w) = some row ∧ w &&& row.mask = row.base := by
  obtain ⟨rfl, hwf⟩ := encodeOfDecodeGivesTheWord w i h
  obtain ⟨hop, row, hrow, hmatch⟩ := rowMatch i hwf
  exact ⟨row, hop ▸ hrow, hmatch⟩

/-- R72: IMM[6] is a reserved bit of CFG's format, so the fourth condition follows from the third. -/
theorem getLsbD_six_of_reservedImm {w : Word} (h : immField w &&& reservedImm (opField w) = 0#24)
    (hop : opField w = 0x1#4) : w.getLsbD 6 = false := by
  rw [hop] at h
  have hbit : (immField w).extractLsb' 6 1 = 0#1 := extractLsb'_eq_of_and_eq h (by decide)
  rwa [immField, extractLsb'_extractLsb' w (by decide), extractLsb'_eq_zero_iff_getLsbD] at hbit

/-- Settles O3: what decodes matches its row, the row gives the five conditions, and they are enough to decode. -/
theorem legalWordsAreThoseOfTheTable : Obligations.LegalWordsAreThoseOfTheTable := by
  intro w
  have hrow : (∃ row, opcodeRow (opField w) = some row ∧ w &&& row.mask = row.base) →
      ∃ i, decode w = .ok i := by
    rintro ⟨row, hrow, hmatch⟩
    obtain ⟨hop, hrsv, himm, hreg⟩ := conditions_of_row hrow hmatch
    exact decodes_of_conditions hop hrsv himm hreg
  refine ⟨⟨fun ⟨i, hi⟩ => ?_, fun ⟨hop, hrsv, himm, _, hreg⟩ => decodes_of_conditions hop hrsv himm hreg⟩,
    ⟨fun ⟨i, hi⟩ => row_of_decode hi, hrow⟩, fun hill s rest hpending => ?_⟩
  · obtain ⟨row, hrow, hmatch⟩ := row_of_decode hi
    obtain ⟨hop, hrsv, himm, hreg⟩ := conditions_of_row hrow hmatch
    exact ⟨hop, hrsv, himm, getLsbD_six_of_reservedImm himm, hreg⟩
  · cases hw : decode w with
    | ok i => exact absurd ⟨i, hw⟩ hill
    | error r => exact (step_issue hpending).trans (runWord_illegal hw _)

/-- R71, R72: every row pins OP to its own opcode. -/
theorem opcodeTable_ops : ∀ j : Fin opcodeTable.length,
    opField opcodeTable[j].mask = BitVec.allOnes 4 ∧ (opField opcodeTable[j].base).toNat = j := by
  decide

/-- R72: a word that matches a row has that row's OP. -/
theorem opField_of_row {w : Word} {j : Nat} {row : OpcodeRow} (hrow : opcodeTable[j]? = some row)
    (h : w &&& row.mask = row.base) : (opField w).toNat = j := by
  obtain ⟨hj, rfl⟩ := List.getElem?_eq_some_iff.1 hrow
  obtain ⟨hmask, hbase⟩ := opcodeTable_ops ⟨j, hj⟩
  exact (congrArg BitVec.toNat (extractLsb'_eq_of_and_eq h hmask)).trans hbase

/-- Settles O5: the OP of a word names the one row it can match. -/
theorem opcodeRowsAreDisjoint : Obligations.OpcodeRowsAreDisjoint :=
  fun _ _ _ _ _ hj hk hwj hwk => (opField_of_row hj hwj).symm.trans (opField_of_row hk hwk)

end Sys2Proof.Claims
end

section
/-! SUPPORT. What every step keeps (spec/10_state.md R20 to R32, spec/20_memory.md R40): the invariant through each register
update, each command and the reset, the sticky bits, and which command writes which register. -/

open Sys2Proof Sys2Proof.Machine

namespace Sys2Proof.Claims

/-! ### The invariant through the updates of the state -/

/-- With WBIT = 0 no byte holds a packed bit. -/
theorem not_lt_ceilDiv8_zero (a : Nat) : ¬ a < ceilDiv8 (0#20).toNat := by simp [ceilDiv8]

theorem inv_resetWith {n : Nat} (epoch : Nat) (hlo : 1 ≤ n) (hhi : n ≤ 65536) : (State.resetWith n epoch).Inv where
  size := ⟨hlo, hhi⟩
  cursors := ⟨Nat.zero_le _, Nat.zero_le _, Nat.zero_le _⟩
  cfg := (by decide : roundingLegal (rndField 16#7) = true)
  status := (by decide : (lastErr 0#8).toNat ≤ 5 ∧
    (lastErr 0#8 ≠ 0#3 → (0#8).getLsbD ((lastErr 0#8).toNat + 2) = true))
  buf := ⟨Memory.wf_nil, by simp [State.resetWith]⟩
  packed := fun a ha => absurd ha (not_lt_ceilDiv8_zero a)

/-- Settles O51: every register is 0 or a legal value, and BUF lists nothing. -/
theorem invariantHoldsAtReset : Obligations.InvariantHoldsAtReset :=
  ⟨fun _ epoch hlo hhi => inv_resetWith epoch hlo hhi, inv_resetWith 0 (by decide) (by decide)⟩

theorem appendCode_buf (s : State) (n v : Nat) :
    (s.appendCode n v).buf = s.buf.storeView (clearPad (s.wbit.toNat + n) (bitWrite s.wbit.toNat n v s.bitAt))
      (s.wbit.toNat / 8) (ceilDiv8 (s.wbit.toNat + n) - s.wbit.toNat / 8) := rfl

section

variable {s : State} (hinv : s.Inv)
include hinv

theorem inv_withPending (rest : List Interaction) : (s.withPending rest).Inv :=
  ⟨hinv.size, hinv.cursors, hinv.cfg, hinv.status, hinv.buf, hinv.packed⟩

theorem inv_withResult (v : Data) : (s.withResult v).Inv :=
  ⟨hinv.size, hinv.cursors, hinv.cfg, hinv.status, hinv.buf, hinv.packed⟩

theorem inv_withCfg {d : BitVec 5} {r : BitVec 2} (hr : roundingLegal r = true) : (s.withCfg (cfgOf d r)).Inv where
  __ := hinv
  cfg := by rwa [State.cfgLegal, State.withCfg_cfg, rndField_cfgOf]

theorem inv_withRbit {v : BitVec 20} (hv : v.toNat ≤ 8 * s.bufBytes) : (s.withRbit v).Inv where
  __ := hinv
  cursors := by
    obtain ⟨hwbit, -, hlen⟩ := hinv.cursors
    exact ⟨hwbit, hv, hlen⟩

theorem inv_withLen {v : BitVec 17} (hv : v.toNat ≤ s.bufBytes) : (s.withLen v).Inv where
  __ := hinv
  cursors := by
    obtain ⟨hwbit, hrbit, -⟩ := hinv.cursors
    exact ⟨hwbit, hrbit, hv⟩

theorem inv_withWbit_zero : (s.withWbit 0#20).Inv where
  __ := hinv
  cursors := ⟨Nat.zero_le _, hinv.cursors.2⟩
  packed := fun a ha => absurd ha (not_lt_ceilDiv8_zero a)

theorem inv_storeByte {a : Nat} (ha : a < s.bufBytes) (v : Byte) : (s.storeByte a v).Inv where
  __ := hinv
  buf := by
    obtain ⟨hwf, hinside⟩ := hinv.buf
    refine ⟨Memory.write_wf hwf a v, fun c hc => ?_⟩
    rcases Memory.mem_write hc with rfl | hc
    · exact ha
    · exact hinside c hc
  packed := by
    intro b hb
    rw [State.storeByte_buf, Memory.read?_write]
    split
    · simp
    · exact hinv.packed b hb

/-- R31, R40, R45: an append inside BUF moves WBIT, LEN and the written bytes together. -/
theorem inv_appendCode {n : Nat} (hfit : s.wbit.toNat + n ≤ 8 * s.bufBytes) (v : Nat) : (s.appendCode n v).Inv := by
  obtain ⟨hlo, hhi⟩ := hinv.size
  obtain ⟨-, hrbit, -⟩ := hinv.cursors
  obtain ⟨hwf, hinside⟩ := hinv.buf
  have hwbit := toNat_appendCode_wbit v hhi hfit
  have hlen := toNat_appendCode_len v hhi hfit
  refine ⟨hinv.size, ⟨?_, hrbit, ?_⟩, hinv.cfg, hinv.status, ⟨Memory.storeView_wf hwf .., fun c hc => ?_⟩,
    fun a ha => ?_⟩
  · rwa [hwbit]
  · rw [hlen, State.appendCode_bufBytes, ceilDiv8]
    omega
  · rcases Memory.mem_storeView hc with hc | hc
    · rw [State.appendCode_bufBytes]
      rw [ceilDiv8] at hc
      omega
    · exact hinside c hc
  · rw [hwbit, ceilDiv8] at ha
    rw [appendCode_buf, Memory.read?_storeView]
    split
    · simp
    · next hout => exact hinv.packed a (by simp only [ceilDiv8] at hout ⊢; omega)

theorem inv_takeReset : s.takeReset.Inv := by
  have hreset := inv_resetWith (s.epoch + 1) hinv.size.1 hinv.size.2
  exact ⟨hreset.size, hreset.cursors, hreset.cfg, hreset.status, hreset.buf, hreset.packed⟩

/-- A completion leaves a legal STATUS, whatever STATUS it finds. -/
theorem inv_complete (status : BitVec 8) (e : Option CmdError) : ((s.withStatus status).complete e).Inv :=
  ⟨hinv.size, hinv.cursors, hinv.cfg, statusLegal_complete _ e, hinv.buf, hinv.packed⟩

/-! ### The invariant through a step -/

/-- The reads of UNPACK and UNPACKDQ leave RBIT where it is cut to its width at most where the read ends. -/
theorem inv_afterRead (hfit : s.rbit.toNat + s.depth ≤ 8 * s.bufBytes) (v : Data) : (s.afterRead v).Inv := by
  refine inv_withResult (inv_withRbit hinv ?_) v
  rw [BitVec.toNat_ofNat]
  exact (Nat.mod_le ..).trans hfit

/-- But for ERRCLR, which leaves STATUS to its completion, a command's own writes keep the invariant. -/
theorem inv_effect {i : Instr} (hi : i ≠ .errclr) (hacc : accepts i s) : (effect i s).Inv := by
  cases i
  case nop => exact hinv
  case cfg d r => exact inv_withCfg hinv hacc
  case quant | dequant | rdbyte | rdreg => exact inv_withResult hinv _
  case pack c => exact inv_appendCode hinv hacc.2 _
  case qpack x => exact inv_withResult (inv_appendCode hinv hacc.2 _) _
  case unpack | unpackdq =>
    obtain ⟨-, -, hfit⟩ := hacc
    exact inv_afterRead hinv hfit _
  case pclr => exact inv_withLen (inv_withWbit_zero hinv) (Nat.zero_le _)
  case rclr => exact inv_withRbit hinv (Nat.zero_le _)
  case setlen v => exact inv_withLen hinv hacc
  case wrbyte a d => exact inv_storeByte hinv hacc d
  case errclr => exact absurd rfl hi

theorem exec_keeps_inv {i : Instr} {t : State} (h : exec i s = .next t) : t.Inv := by
  rcases exec_next h with ⟨hacc, rfl⟩ | ⟨-, e, rfl⟩
  · by_cases hi : i = .errclr
    · subst hi
      exact inv_complete hinv (clearSticky s.status) none
    · exact inv_complete (inv_effect hinv hi hacc) (effect i s).status none
  · exact inv_complete hinv s.status (some e)

theorem runWord_keeps_inv {w : Word} {t : State} (h : runWord w s = .next t) : t.Inv := by
  cases hw : decode w with
  | ok i => exact exec_keeps_inv hinv ((runWord_ok hw s).symm.trans h)
  | error r =>
    rw [runWord_error hw, raise_eq] at h
    cases h
    exact inv_complete hinv s.status (some .illegalCommand)

end

/-- Settles O52: a step is idle, a reset, or a command word, and each keeps the invariant. -/
theorem stepKeepsTheInvariant : Obligations.StepKeepsTheInvariant := by
  intro s t hinv h
  rcases hpending : s.pending with _ | ⟨w | _, rest⟩
  · rw [step_nil hpending] at h
    cases h
    exact hinv
  · rw [step_issue hpending] at h
    exact runWord_keeps_inv (inv_withPending hinv rest) h
  · rw [step_reset hpending] at h
    cases h
    exact inv_takeReset (inv_withPending hinv rest)

/-- Settles O54: the one fault needs LEN past BUF. -/
theorem noStepStops : Obligations.NoStepStops := by
  intro s hinv
  rcases hpending : s.pending with _ | ⟨w | _, rest⟩
  · exact ⟨_, step_nil hpending⟩
  · obtain ⟨-, -, hlen⟩ := hinv.cursors
    rw [step_issue hpending]
    exact runWord_completes w hlen
  · exact ⟨_, step_reset hpending⟩

/-! ### The sticky bits (R171) -/

/-- A completed word keeps every sticky bit or is the word of ERRCLR. -/
theorem sticky_of_runWord {w : Word} {s t : State} {k : Nat} (h : runWord w s = .next t)
    (hk : (stickyBits s.status).getLsbD k = true) :
    (stickyBits t.status).getLsbD k = true ∨ w = 0xE0000000#32 := by
  rcases runWord_next_status h with ⟨hw, -⟩ | ⟨-, e, ht⟩
  · exact .inr (encodeOfDecodeGivesTheWord w .errclr hw).1.symm
  · refine .inl ?_
    rw [ht, getLsbD_stickyBits_statusOnComplete e _ (BitVec.lt_of_getLsbD hk), hk, Bool.true_or]

/-- Settles O48: only a command word that completes or a reset changes STATUS. -/
theorem stickyBitsStayUntilErrclrOrReset : Obligations.StickyBitsStayUntilErrclrOrReset := by
  intro s t k h hk
  rcases hpending : s.pending with _ | ⟨w | _, rest⟩
  · rw [step_nil hpending] at h
    cases h
    exact .inl hk
  · rw [step_issue hpending] at h
    rcases sticky_of_runWord h hk with hstays | rfl
    · exact .inl hstays
    · exact .inr (.inr ⟨rest, rfl⟩)
  · exact .inr (.inl ⟨rest, rfl⟩)

/-! ### The writers of each register (R32, R35) -/

section

variable {i : Instr} {s : State}

theorem cfg_of_effect_cfg_ne (h : (effect i s).cfg ≠ s.cfg) : ∃ d r, i = .cfg d r := by
  cases i
  case cfg d r => exact ⟨d, r, rfl⟩
  all_goals exact absurd rfl h

theorem writer_of_effect_wbit_ne (h : (effect i s).wbit ≠ s.wbit) :
    (∃ c, i = .pack c) ∨ (∃ x, i = .qpack x) ∨ i = .pclr := by
  cases i
  case pack | qpack | pclr => simp
  all_goals exact absurd rfl h

theorem writer_of_effect_rbit_ne (h : (effect i s).rbit ≠ s.rbit) : i = .unpack ∨ i = .unpackdq ∨ i = .rclr := by
  cases i
  case unpack | unpackdq | rclr => simp
  all_goals exact absurd rfl h

theorem writer_of_effect_len_ne (h : (effect i s).len ≠ s.len) :
    (∃ c, i = .pack c) ∨ (∃ x, i = .qpack x) ∨ i = .pclr ∨ ∃ v, i = .setlen v := by
  cases i
  case pack | qpack | pclr | setlen => simp
  all_goals exact absurd rfl h

theorem writer_of_effect_result_ne (h : (effect i s).result ≠ s.result) :
    (∃ x, i = .quant x) ∨ (∃ c, i = .dequant c) ∨ i = .unpack ∨ (∃ x, i = .qpack x) ∨
      i = .unpackdq ∨ (∃ a, i = .rdbyte a) ∨ ∃ r, i = .rdreg r := by
  cases i
  case quant | dequant | unpack | qpack | unpackdq | rdbyte | rdreg => simp
  all_goals exact absurd rfl h

theorem writer_of_effect_buf_ne (h : (effect i s).buf ≠ s.buf) :
    (∃ c, i = .pack c) ∨ (∃ x, i = .qpack x) ∨ ∃ a d, i = .wrbyte a d := by
  cases i
  case pack | qpack | wrbyte => simp
  all_goals exact absurd rfl h

/-- No command's own writes touch the model's own fields. -/
theorem effect_frame (i : Instr) (s : State) :
    (effect i s).bufBytes = s.bufBytes ∧ (effect i s).epoch = s.epoch ∧ (effect i s).pending = s.pending := by
  cases i <;> exact ⟨rfl, rfl, rfl⟩

end

/-- Settles O50: a command that completes leaves the registers as its own writes do, and an error as they were. -/
theorem onlyNamedCommandsWriteARegister : Obligations.OnlyNamedCommandsWriteARegister := by
  intro i s t h
  rcases exec_next h with ⟨-, rfl⟩ | ⟨-, e, rfl⟩
  · exact ⟨cfg_of_effect_cfg_ne, writer_of_effect_wbit_ne, writer_of_effect_rbit_ne, writer_of_effect_len_ne,
      writer_of_effect_result_ne, writer_of_effect_buf_ne, effect_frame i s⟩
  · exact ⟨absurd rfl, absurd rfl, absurd rfl, absurd rfl, absurd rfl, absurd rfl, rfl, rfl, rfl⟩

end Sys2Proof.Claims
end

section
/-! SUPPORT. The interactions of the host (spec/70_reset_and_hazards.md R180, R181, R188) and the control commands
(spec/42_control.md R130 to R138): each success is `succeed` of the command's own writes. -/

open Sys2Proof Sys2Proof.Machine

namespace Sys2Proof.Claims

/-! ### The host's interactions -/

/-- Settles O6: a step that issues a word runs it, and running a word that decodes is executing its command. -/
theorem stepRunsTheDecodedCommand : Obligations.StepRunsTheDecodedCommand :=
  fun _ _ _ _ hpending hw => (step_issue hpending).trans (runWord_ok hw _)

/-- Settles O8: the step of a reset is `takeReset`, whose every field is known. -/
theorem hostResetLeavesTheResetState : Obligations.HostResetLeavesTheResetState :=
  fun _ _ hpending => ⟨_, step_reset hpending, rfl, rfl, rfl, rfl, rfl, rfl, fun _ => rfl, rfl, rfl, rfl⟩

/-- Settles O9: RDREG's BYTEWIDTH is that of DEPTH = 16; every other value is the field itself. -/
theorem resetStateValues : Obligations.ResetStateValues := by
  rintro n epoch - s rfl
  have hdepth : (State.resetWith n epoch).depth = 16 := rfl
  have hwidth : readReg (State.resetWith n epoch) 6#4 = some (zext24 ((16 + 7) / 8)) := rfl
  have hrnd : rndField (State.resetWith n epoch).cfg = 0#2 := (by decide : rndField 16#7 = 0#2)
  have hfloor : (State.resetWith n epoch).rounding = .floor := if_pos hrnd
  exact ⟨hdepth, hrnd, hfloor, rfl, rfl, rfl, rfl, rfl, rfl, fun _ => rfl, hwidth, rfl, rfl⟩

/-! ### What a control command leaves -/

/-- A command whose checks hold completes with `succeed` of its own writes. -/
theorem exec_eq_succeed {i : Instr} {s : State} (h : accepts i s) : exec i s = .next (succeed (effect i s)) := by
  rw [exec_eq_succeeded h, succeeded, complete_none_eq_succeed]

/-- Settles O10. NOP accepts every state and has no writes of its own. -/
theorem nopOnlyClearsLasterr : Obligations.NopOnlyClearsLasterr := fun _ => exec_eq_succeed (i := .nop) trivial

/-- Settles O11: the two fields of the CFG written are the operands, and RND is the one check. -/
theorem cfgWritesDepthAndRounding : Obligations.CfgWritesDepthAndRounding := by
  refine fun s depth rnd => ⟨fun hrnd => ?_, fun hrnd => ?_⟩
  · have hacc : accepts (.cfg depth rnd) s := decide_eq_true hrnd
    exact ⟨_, exec_eq_succeed hacc, rfl, depthField_cfgOf depth rnd, rndField_cfgOf depth rnd⟩
  · have hno : ¬ roundingLegal rnd = true := by rw [roundingLegal, decide_eq_true_eq]; omega
    exact failsWith_of_raise (if_neg hno)

/-- Settles O12: neither command has a check. -/
theorem pclrAndRclrZeroTheirCursors : Obligations.PclrAndRclrZeroTheirCursors :=
  fun _ => ⟨exec_eq_succeed (i := .pclr) trivial, exec_eq_succeed (i := .rclr) trivial⟩

/-- Settles O13: the range of VALUE is the one check. -/
theorem setlenWritesLen : Obligations.SetlenWritesLen :=
  fun _ value => ⟨fun h => exec_eq_succeed (i := .setlen value) h, setlen_addressRange⟩

/-- Settles O14: reading BUF after the write gives the byte at its address and the old bytes elsewhere. -/
theorem wrbyteWritesOneByte : Obligations.WrbyteWritesOneByte := by
  refine fun s addr data => ⟨fun h => ?_, fun h => wrbyte_addressRange h data⟩
  have hread : ∀ a, (succeed (s.storeByte addr.toNat data)).byteAt a = if a = addr.toNat then data else s.byteAt a :=
    fun a => State.byteAt_storeByte s addr.toNat a data
  exact ⟨_, exec_eq_succeed (i := .wrbyte addr data) h, rfl, (hread _).trans (if_pos rfl),
    fun a ha => (hread a).trans (if_neg ha)⟩

/-- RDBYTE inside BUF. -/
theorem exec_rdbyte {s : State} {addr : BitVec 16} (h : addr.toNat < s.bufBytes) :
    exec (.rdbyte addr) s = .next (succeed { s with result := (s.byteAt addr.toNat).setWidth 24 }) := by
  rw [exec_eq_succeed (i := .rdbyte addr) h, effect, zext24_toNat]
  rfl

/-- Settles O15: the range of ADDR is the one check. -/
theorem rdbyteReadsOneByte : Obligations.RdbyteReadsOneByte :=
  fun _ _ => ⟨exec_rdbyte, rdbyte_addressRange⟩

/-- Settles O16: each number is a row of the register table, and the numbers from 8 on have none. -/
theorem rdregReadsTheRegisterTable : Obligations.RdregReadsTheRegisterTable := by
  refine fun s => ⟨exec_rdreg_of_readReg rfl, exec_rdreg_of_readReg rfl, exec_rdreg_of_readReg rfl,
    exec_rdreg_of_readReg rfl, exec_rdreg_of_readReg rfl, exec_rdreg_of_readReg rfl, exec_rdreg_of_readReg rfl,
    exec_rdreg_of_readReg rfl, fun reg hreg => ?_⟩
  have hnone : readReg s reg = none := (readReg_eq_none_iff s reg).2 (decide_eq_false (Nat.not_lt.2 hreg))
  exact failsWith_of_raise (by rw [exec, execRdreg, hnone])

/-- Settles O17: each range of the five-bit DEPTH has one `ceil(DEPTH / 8)`. -/
theorem bytewidthFollowsDepth : Obligations.BytewidthFollowsDepth := by
  intro s
  have hlt : s.depth < 32 := (depthField s.cfg).isLt
  have hwidth : s.byteWidth = (s.depth + 7) / 8 := rfl
  refine ⟨_, exec_rdreg_of_readReg (reg := 6#4) (v := zext24 s.byteWidth) rfl, fun h => congrArg zext24 ?_,
    fun hlo hhi => congrArg zext24 ?_, fun hlo hhi => congrArg zext24 ?_, fun hlo hhi => congrArg zext24 ?_,
    fun hlo => congrArg zext24 ?_, ?_⟩
  case refine_6 =>
    have hresult : (zext24 s.byteWidth).toNat = s.byteWidth := toNat_zext24 (by omega)
    change s.depth ≤ 8 * (zext24 s.byteWidth).toNat
    omega
  all_goals omega

/-- Settles O18: ERRCLR's own write and its completion leave no bit of STATUS. -/
theorem errclrClearsStatus : Obligations.ErrclrClearsStatus := by
  intro s
  rw [exec_eq_succeeded (i := .errclr) trivial, succeeded, State.complete, responseWord_statusOnComplete_none, effect,
    State.withStatus_status, statusOnComplete_clearSticky]
  rfl

end Sys2Proof.Claims
end

section
/-! SUPPORT. What the commands read (spec/42_control.md, spec/60_exceptions.md R168): a change of the state that leaves the
fields of their checks alone, and that their writes do not see, is left alone by every command. -/

open Sys2Proof Sys2Proof.Machine

namespace Sys2Proof.Claims

/-- An outcome with its next state changed. -/
def mapNext (g : State → State) : Out → Out
  | .next s => .next (g s)
  | .fault r => .fault r
  | .refused r => .refused r

/-- The fields the checks of the commands read are the same in both states. -/
structure SameChecks (s s' : State) : Prop where
  bufBytes : s'.bufBytes = s.bufBytes
  cfg : s'.cfg = s.cfg
  wbit : s'.wbit = s.wbit
  rbit : s'.rbit = s.rbit
  len : s'.len = s.len

theorem SameChecks.depth {s s' : State} (h : SameChecks s s') : s'.depth = s.depth := by
  rw [State.depth, h.cfg, State.depth]

theorem exec_cfg (d : BitVec 5) (r : BitVec 2) (s : State) : exec (.cfg d r) s =
    if ¬ roundingLegal r = true then raise .illegalCommand s else respond (effect (.cfg d r) s) :=
  (ite_not ..).symm

theorem exec_rdreg (r : BitVec 4) (s : State) : exec (.rdreg r) s =
    if ¬ registerLegal r = true then raise .illegalCommand s else respond (effect (.rdreg r) s) := by
  split
  · next h => rw [exec, execRdreg, (readReg_eq_none_iff s r).2 (Bool.eq_false_of_not_eq_true h)]
  · next h => exact exec_of_accepts (i := .rdreg r) (not_not.1 h)

section

variable {g : State → State} {s : State} (hcomplete : ∀ u e, State.complete (g u) e = g (u.complete e))
include hcomplete

theorem respond_commutes {u u' : State} (h : u' = g u) : respond u' = mapNext g (respond u) := by
  rw [h, respond_eq, hcomplete, respond_eq, mapNext]

/-- One check, with what follows it. -/
theorem check_commutes {c c' : Prop} [Decidable c] [Decidable c'] (e : CmdError) {next next' : Out} (hc : c' ↔ c)
    (h : ¬ c → next' = mapNext g next) :
    (if c' then raise e (g s) else next') = mapNext g (if c then raise e s else next) := by
  rw [apply_ite (mapNext g)]
  exact ite_congr (propext hc) (fun _ => by rw [raise_eq, hcomplete, raise_eq, mapNext]) h

variable (hsame : SameChecks s (g s))
include hsame

theorem unpackWith_commutes {f f' : Nat → Data}
    (h : s.rbit.toNat + s.depth ≤ 8 * s.len.toNat → s.rbit.toNat + s.depth ≤ 8 * s.bufBytes →
      (g s).afterRead (f' (bitRead (g s).bitAt (g s).rbit.toNat (g s).depth)) =
        g (s.afterRead (f (bitRead s.bitAt s.rbit.toNat s.depth)))) :
    unpackWith f' (g s) = mapNext g (unpackWith f s) := by
  unfold unpackWith
  refine check_commutes hcomplete .truncatedStream (by rw [hsame.rbit, hsame.depth, hsame.len]) fun hlen => ?_
  rw [apply_ite (mapNext g)]
  refine ite_congr (by rw [hsame.rbit, hsame.depth, hsame.bufBytes]) (fun _ => rfl) fun hbuf => ?_
  exact respond_commutes hcomplete (h (Nat.not_lt.1 hlen) (Nat.not_lt.1 hbuf))

/-- A command whose own writes commute with the change commutes with it. -/
theorem exec_commutes {i : Instr} (heffect : accepts i s → effect i (g s) = g (effect i s)) :
    exec i (g s) = mapNext g (exec i s) := by
  have hdepth := hsame.depth
  have hfit : (g s).wbit.toNat + (g s).depth > 8 * (g s).bufBytes ↔ s.wbit.toNat + s.depth > 8 * s.bufBytes := by
    rw [hsame.wbit, hdepth, hsame.bufBytes]
  have hbytes := hsame.bufBytes
  cases i
  case nop | pclr | rclr | errclr => exact respond_commutes hcomplete (heffect trivial)
  case cfg d r =>
    rw [exec_cfg, exec_cfg]
    exact check_commutes hcomplete .illegalCommand Iff.rfl fun h => respond_commutes hcomplete (heffect (not_not.1 h))
  case quant | dequant =>
    exact check_commutes hcomplete .unsupportedDepth (by rw [hdepth]) fun h =>
      respond_commutes hcomplete (heffect (not_not.1 h))
  case pack | qpack =>
    exact check_commutes hcomplete .unsupportedDepth (by rw [hdepth]) fun h =>
      check_commutes hcomplete .bufferOverflow hfit fun h' =>
        respond_commutes hcomplete (heffect ⟨not_not.1 h, Nat.not_lt.1 h'⟩)
  case unpack | unpackdq =>
    exact check_commutes hcomplete .unsupportedDepth (by rw [hdepth]) fun h =>
      unpackWith_commutes hcomplete hsame fun h' h'' => heffect ⟨not_not.1 h, h', h''⟩
  case setlen v =>
    exact check_commutes hcomplete .addressRange (by rw [hbytes]) fun h =>
      respond_commutes hcomplete (heffect (Nat.not_lt.1 h))
  case wrbyte | rdbyte =>
    exact check_commutes hcomplete .addressRange (by rw [hbytes]) fun h =>
      respond_commutes hcomplete (heffect (Nat.not_le.1 h))
  case rdreg r =>
    rw [exec_rdreg, exec_rdreg]
    exact check_commutes hcomplete .illegalCommand Iff.rfl fun h => respond_commutes hcomplete (heffect (not_not.1 h))

end

end Sys2Proof.Claims
end

section
/-! SUPPORT. The packing and unpacking commands (spec/40_bitpacker.md R80, R81, spec/41_quantizer.md R111, R112): the bits they
write and read, QPACK and UNPACKDQ as two commands in one, and what none of them depends on. -/

open Sys2Proof Sys2Proof.Machine

namespace Sys2Proof.Claims

/-! ### PACK (R80) -/

theorem testBit_codeBits (code : BitVec 24) {n b : Nat} (hb : b < n) :
    (codeBits code n).testBit b = code.getLsbD b := by
  rw [codeBits, Nat.testBit_mod_two_pow, decide_eq_true hb, Bool.true_and, BitVec.testBit_toNat]

/-- Settles O19: the bits are those of the append, whose code bits are the operand's. -/
theorem packAppendsTheCodeBits : Obligations.PackAppendsTheCodeBits := by
  intro s code hsize hlo hhi hfit
  have hacc : accepts (.pack code) s := ⟨⟨hlo, hhi⟩, hfit⟩
  refine ⟨_, exec_eq_succeed hacc, rfl, toNat_appendCode_wbit (codeBits code s.depth) hsize hfit,
    toNat_appendCode_len (codeBits code s.depth) hsize hfit, fun g => ?_⟩
  refine (State.bitAt_appendCode s s.depth (codeBits code s.depth) g).trans (ite_congr rfl (fun hg => ?_) fun _ => rfl)
  exact testBit_codeBits code (by omega)

/-- Settles O27: bit `b` of byte `k` is bit `8k + b` of the code. -/
theorem wholeBytesAreLittleEndian : Obligations.WholeBytesAreLittleEndian := by
  intro s code hsize hdepth hwbit hfit
  have hacc : accepts (.pack code) s := ⟨by omega, hfit⟩
  refine ⟨_, exec_eq_succeed hacc, fun k hk => BitVec.eq_of_getLsbD_eq fun b hb => ?_⟩
  have hplace : 8 * (s.wbit.toNat / 8 + k) + b = s.wbit.toNat + (8 * k + b) := by omega
  have hin : 8 * k + b < s.depth := by omega
  rw [BitVec.getLsbD_extractLsb', decide_eq_true hb, Bool.true_and, ← testBit_codeBits code hin,
    ← bitAt_eq_getLsbD_byteAt _ _ hb, hplace]
  exact bitAt_appendCode_code s s.depth _ hin

/-! ### UNPACK (R81) -/

/-- Settles O20: RESULT holds the bits of the run that BitRead gives. -/
theorem unpackReadsTheNextCode : Obligations.UnpackReadsTheNextCode := by
  intro s hsize hlen hlo hhi hfit
  have hacc : accepts .unpack s := ⟨⟨hlo, hhi⟩, hfit, by omega⟩
  refine ⟨_, exec_eq_succeed hacc, rfl, ?_, fun b => ?_⟩
  · change (BitVec.ofNat 20 (s.rbit.toNat + s.depth)).toNat = _
    rw [BitVec.toNat_ofNat, Nat.mod_eq_of_lt (by omega)]
  · change (zext24 (bitRead s.bitAt s.rbit.toNat s.depth)).getLsbD b = _
    rw [zext24, BitVec.getLsbD_ofNat, testBit_bitRead]
    by_cases hb : b < s.depth
    · simp [hb, show b < 24 by omega]
    · simp [hb]

/-- The read of UNPACK and UNPACKDQ past BUF (log 8). -/
theorem unpackWith_outsideBuffer {s : State} (hbuf : 8 * s.bufBytes < s.rbit.toNat + s.depth)
    (hlen : s.rbit.toNat + s.depth ≤ 8 * s.len.toNat) (f : Nat → Data) :
    unpackWith f s = .fault .outsideBuffer := by
  rw [unpackWith, if_neg (Nat.not_lt.2 hlen), if_pos hbuf]

/-- Settles O55: past the depth check both commands are that read. -/
theorem unpackPastTheBufferFaults : Obligations.UnpackPastTheBufferFaults :=
  fun _ hbuf hlen => ⟨fun hdepth => (if_neg (not_not.2 hdepth)).trans (unpackWith_outsideBuffer hbuf hlen _),
    fun hmem => (if_neg (not_not.2 ((quantDepth_iff_mem _).2 hmem))).trans (unpackWith_outsideBuffer hbuf hlen _)⟩

/-! ### Two commands in one (R111, R112) -/

theorem quantize_lt {n : Nat} (hn : quantDepth n) (rnd : Rounding) (x : BitVec 16) :
    quantize x.toInt n rnd < 2 ^ n := by
  by_cases hwide : n = 16 ∨ n = 24
  · exact quantize_wide_lt hwide rnd x
  · have hle := quantize_le_levels (n := n) (by omega) rnd (isSample_toInt x)
    have hpos := Nat.two_pow_pos n
    omega

/-- A code of at most 24 bits survives RESULT (R29, R65). -/
theorem codeBits_zext24 {c n : Nat} (hc : c < 2 ^ n) (hn : n ≤ 24) : codeBits (zext24 c) n = c := by
  rw [codeBits, toNat_zext24 (hc.trans_le (Nat.pow_le_pow_right (by decide) hn)), Nat.mod_eq_of_lt hc]

theorem exec_pack_of_code {s : State} {code : BitVec 24} {c : Nat} (hdepth : packDepth s.depth)
    (hfit : s.wbit.toNat + s.depth ≤ 8 * s.bufBytes) (hcode : codeBits code s.depth = c) :
    exec (.pack code) s = .next (succeed (s.appendCode s.depth c)) :=
  hcode ▸ exec_eq_succeed (i := .pack code) ⟨hdepth, hfit⟩

theorem exec_dequant_of_code {s : State} {code : BitVec 24} {c : Nat} (hdepth : quantDepth s.depth)
    (hcode : codeBits code s.depth = c) :
    exec (.dequant code) s = .next (succeed (s.withResult (pat24 (dequantize c s.depth)))) :=
  hcode ▸ exec_eq_succeed (i := .dequant code) hdepth

/-- Success after success leaves what one success does, but for the first response. -/
theorem succeed_eq_of_succeeded (s : State) (responses : List Word) :
    succeed s = { succeed { s with status := (succeed s).status, responses := responses } with
      responses := (succeed s).responses } := by
  have hsticky : stickyBits (succeed s).status = stickyBits s.status := stickyBits_setLastErr 0#3 s.status
  simp only [succeed] at hsticky ⊢
  rw [hsticky]

/-- Settles O34: RESULT carries the code from QUANT to PACK unchanged. -/
theorem qpackIsQuantThenPack : Obligations.QpackIsQuantThenPack := by
  refine fun s x hdepth => ⟨fun hfit => ?_, fun h => qpack_bufferOverflow hdepth h x⟩
  have hpack : packDepth s.depth := packDepth_of_quantDepth hdepth
  generalize hc : quantize x.toInt s.depth s.rounding = c
  have hcode : codeBits (zext24 c) s.depth = c := codeBits_zext24 (hc ▸ quantize_lt hdepth s.rounding x) hpack.2
  have hquant : exec (.quant x) s = .next (succeed { s with result := zext24 c }) := hc ▸ exec_quant hdepth x
  have hqpack : exec (.qpack x) s = .next (succeed ((s.appendCode s.depth c).withResult (zext24 c))) :=
    hc ▸ exec_eq_succeed (i := .qpack x) ⟨hdepth, hfit⟩
  have hnext : exec (.pack (zext24 c)) (succeed { s with result := zext24 c }) =
      .next (succeed (State.appendCode (succeed { s with result := zext24 c }) s.depth c)) :=
    exec_pack_of_code (s := succeed { s with result := zext24 c }) hpack hfit hcode
  exact ⟨_, _, hquant, hnext, rfl, hqpack.trans (congrArg _ (succeed_eq_of_succeeded _ _))⟩

/-- Settles O35: RESULT carries the code from UNPACK to DEQUANT unchanged. -/
theorem unpackdqIsUnpackThenDequant : Obligations.UnpackdqIsUnpackThenDequant := by
  intro s hdepth hlen hfit
  have hpack : packDepth s.depth := packDepth_of_quantDepth hdepth
  have hbuf : s.rbit.toNat + s.depth ≤ 8 * s.bufBytes := by omega
  generalize hc : bitRead s.bitAt s.rbit.toNat s.depth = c
  have hcode : codeBits (zext24 c) s.depth = c := codeBits_zext24 (hc ▸ bitRead_lt ..) hpack.2
  have hunpack : exec .unpack s = .next (succeed (s.afterRead (zext24 c))) :=
    hc ▸ exec_eq_succeed (i := .unpack) ⟨hpack, hfit, hbuf⟩
  have hunpackdq : exec .unpackdq s = .next (succeed (s.afterRead (pat24 (dequantize c s.depth)))) :=
    hc ▸ exec_eq_succeed (i := .unpackdq) ⟨hdepth, hfit, hbuf⟩
  have hnext : exec (.dequant (zext24 c)) (succeed (s.afterRead (zext24 c))) =
      .next (succeed ((succeed (s.afterRead (zext24 c))).withResult (pat24 (dequantize c s.depth)))) :=
    exec_dequant_of_code (s := succeed (s.afterRead (zext24 c))) hdepth hcode
  exact ⟨_, _, hunpack, hnext, hunpackdq.trans (congrArg _ (succeed_eq_of_succeeded _ _))⟩

/-! ### What a command does not depend on (R52, R182) -/

/-- The codes below LEN are the same where the bytes below LEN are. -/
theorem bitRead_congr_of_byteAt {s s' : State} {n : Nat} (h : ∀ a < s.len.toNat, s'.byteAt a = s.byteAt a)
    (hfit : s.rbit.toNat + n ≤ 8 * s.len.toNat) :
    bitRead s'.bitAt s.rbit.toNat n = bitRead s.bitAt s.rbit.toNat n :=
  bitsValue_congr fun _ hb => congrArg (BitVec.getLsbD · _) (h _ (by omega))

/-- Settles O28: of BUF the two commands read the code at RBIT, which ends below LEN where they succeed. -/
theorem unpackIgnoresBytesBeyondLen : Obligations.UnpackIgnoresBytesBeyondLen := by
  intro s t s' i hi hs' hbytes h
  generalize s'.buf = m, s'.epoch = epoch at hs' ⊢
  subst hs'
  have heffect : accepts i s →
      effect i { s with buf := m, epoch := epoch } = { effect i s with buf := m, epoch := epoch } := by
    rcases hi with rfl | rfl <;> rintro ⟨-, hfit, -⟩
    · exact congrArg (fun c => { s.afterRead (zext24 c) with buf := m, epoch := epoch })
        (bitRead_congr_of_byteAt hbytes hfit)
    · exact congrArg (fun c => { s.afterRead (pat24 (dequantize c s.depth)) with buf := m, epoch := epoch })
        (bitRead_congr_of_byteAt hbytes hfit)
  have hmap := exec_commutes (g := fun u => { u with buf := m, epoch := epoch }) (fun _ _ => rfl)
    ⟨rfl, rfl, rfl, rfl, rfl⟩ heffect
  rw [hmap, h, mapNext]

theorem storeView_congr {view view' : Nat → Bool} (m : Memory) {a count : Nat}
    (h : ∀ g < 8 * (a + count), view g = view' g) : m.storeView view a count = m.storeView view' a count := by
  induction count generalizing m a with
  | zero => rfl
  | succ k ih =>
    have hbyte : byteOfView view a = byteOfView view' a :=
      congrArg (BitVec.ofNat 8) (bitsValue_congr fun b hb => h _ (by omega))
    rw [Memory.storeView, Memory.storeView, hbyte]
    exact ih _ fun g hg => h g (by omega)

/-- A bit below WBIT is in a byte that has been written, so its value is the same under every draw. -/
theorem bitAt_of_packedWritten {s : State} (h : s.packedWritten) (epoch : Nat) {g : Nat} (hg : g < s.wbit.toNat) :
    State.bitAt { s with epoch := epoch } g = s.bitAt g := by
  obtain ⟨v, hv⟩ := Option.ne_none_iff_exists'.1 (h (g / 8) (by rw [ceilDiv8]; omega))
  simp only [State.bitAt, State.byteAt, hv, Option.getD_some]

/-- R44, R45: the bits PACK stores are the code's, 0, or below WBIT. -/
theorem packedView_congr {view view' : Nat → Bool} {w n v : Nat} (h : ∀ g < w, view g = view' g) {g : Nat}
    (hg : g < 8 * ceilDiv8 (w + n)) :
    clearPad (w + n) (bitWrite w n v view) g = clearPad (w + n) (bitWrite w n v view') g := by
  by_cases hlow : g < w
  · simp only [clearPad, bitWrite, h g hlow]
  · by_cases hcode : g < w + n
    · simp only [clearPad, bitWrite, if_pos (show w ≤ g ∧ g < w + n by omega)]
    · simp only [clearPad, if_pos (show w + n ≤ g ∧ g < 8 * ceilDiv8 (w + n) by omega)]

/-- R182: an append writes the same under every draw. -/
theorem appendCode_withEpoch {s : State} (h : s.packedWritten) (n v epoch : Nat) :
    State.appendCode { s with epoch := epoch } n v = { s.appendCode n v with epoch := epoch } := by
  have hbuf : (State.appendCode { s with epoch := epoch } n v).buf = (s.appendCode n v).buf :=
    storeView_congr _ fun g hg => packedView_congr (fun _ => bitAt_of_packedWritten h epoch)
      (by simp only [ceilDiv8] at hg ⊢; omega)
  exact congrArg (fun m => { s.appendCode n v with buf := m, epoch := epoch }) hbuf

/-- Settles O56: what the append stores is the same under every draw, and nothing else reads BUF. -/
theorem packingDoesNotReadUnwrittenBytes : Obligations.PackingDoesNotReadUnwrittenBytes := by
  intro s t i epoch hinv hi h
  have happend := fun v => appendCode_withEpoch hinv.packed s.depth v epoch
  have heffect : effect i { s with epoch := epoch } = { effect i s with epoch := epoch } := by
    rcases hi with ⟨c, rfl⟩ | ⟨x, rfl⟩
    · exact happend (codeBits c s.depth)
    · exact congrArg (State.withResult · (zext24 (quantize (sampleValue x) s.depth s.rounding))) (happend _)
  have hmap := exec_commutes (g := fun u => { u with epoch := epoch }) (fun _ _ => rfl) ⟨rfl, rfl, rfl, rfl, rfl⟩
    fun _ => heffect
  rw [hmap, h, mapNext]

/-! ### Bytes that nothing has written (R182) -/

theorem read?_eq_none_of_storeView {m : Memory} {view : Nat → Bool} {a count b : Nat}
    (h : (m.storeView view a count).read? b = none) : m.read? b = none := by
  rw [Memory.read?_storeView] at h
  split at h
  · cases h
  · exact h

theorem read?_eq_none_of_write {m : Memory} {a b : Nat} {v : Byte} (h : (m.write a v).read? b = none) :
    m.read? b = none := by
  rw [Memory.read?_write] at h
  split at h
  · cases h
  · exact h

/-- No command takes a byte out of the written ones. -/
theorem read?_eq_none_of_effect {i : Instr} {s : State} {a : Nat} (h : (effect i s).buf.read? a = none) :
    s.buf.read? a = none := by
  cases i
  case pack | qpack => exact read?_eq_none_of_storeView h
  case wrbyte => exact read?_eq_none_of_write h
  all_goals exact h

theorem read?_eq_none_of_exec {i : Instr} {s t : State} {a : Nat} (h : exec i s = .next t)
    (hnone : t.buf.read? a = none) : s.buf.read? a = none := by
  rcases exec_next h with ⟨-, rfl⟩ | ⟨-, e, rfl⟩
  · exact read?_eq_none_of_effect hnone
  · exact hnone

theorem byteAt_of_unwritten {s : State} {a : Nat} (h : s.buf.read? a = none) :
    s.byteAt a = Config.unwrittenByte s.epoch a := by
  rw [State.byteAt, h, Option.getD_none]

/-- Settles O57: a byte unwritten after a command was unwritten before it, and no command touches the draw. -/
theorem unwrittenBytesKeepTheirDraw : Obligations.UnwrittenBytesKeepTheirDraw := by
  intro s t i addr hnone h haddr
  obtain ⟨-, -, -, -, -, -, hbytes, hepoch, -⟩ := onlyNamedCommandsWriteARegister i s t h
  have hbefore : s.buf.read? addr.toNat = none := read?_eq_none_of_exec h hnone
  refine ⟨hbefore, ?_, ?_⟩
  · rw [byteAt_of_unwritten hnone, byteAt_of_unwritten hbefore, hepoch]
  · rw [exec_rdbyte (hbytes ▸ haddr), byteAt_of_unwritten hnone]

end Sys2Proof.Claims
end

section
/-! SUPPORT. Sequences of commands and of interactions (spec/30_encoding.md R77, spec/70_reset_and_hazards.md R181, R189): the
bytes LDSTREAM writes, what a run of any interactions leaves, and a run started again at a reset. -/

open Sys2Proof Sys2Proof.Machine

namespace Sys2Proof.Claims

/-! ### LDSTREAM (R77) -/

/-- What the WRBYTEs of a list of bytes leave, from byte `a` on. -/
structure WroteBytes (s : State) (a : Nat) (bytes : List Byte) (t : State) : Prop where
  bufBytes : t.bufBytes = s.bufBytes
  cfg : t.cfg = s.cfg
  wbit : t.wbit = s.wbit
  result : t.result = s.result
  written : ∀ (j : Nat) (h : j < bytes.length), t.byteAt (a + j) = bytes[j]
  below : ∀ b < a, t.byteAt b = s.byteAt b
  above : ∀ b, a + bytes.length ≤ b → t.byteAt b = s.byteAt b

theorem exec_wrbyte_ofNat {s : State} {a : Nat} (hsize : s.bufBytes ≤ 65536) (ha : a < s.bufBytes) (v : Byte) :
    exec (.wrbyte (BitVec.ofNat 16 a) v) s = .next (succeed (s.storeByte a v)) := by
  have haddr : (BitVec.ofNat 16 a).toNat = a := by rw [BitVec.toNat_ofNat, Nat.mod_eq_of_lt (by omega)]
  have hexec := exec_eq_succeed (i := .wrbyte (BitVec.ofNat 16 a) v) (haddr.trans_lt ha)
  rwa [effect, haddr] at hexec

theorem execAll_writeBytes {s : State} {a : Nat} {bytes : List Byte} (hsize : s.bufBytes ≤ 65536)
    (hfit : a + bytes.length ≤ s.bufBytes) :
    ∃ t, execAll (writeBytes a bytes) s = .next t ∧ WroteBytes s a bytes t := by
  induction bytes generalizing a s with
  | nil => exact ⟨s, rfl, rfl, rfl, rfl, rfl, by simp, fun _ _ => rfl, fun _ _ => rfl⟩
  | cons v bytes ih =>
    have hfit' : a + 1 + bytes.length ≤ s.bufBytes := by rw [List.length_cons] at hfit; omega
    have hexec := exec_wrbyte_ofNat hsize (a := a) (by omega) v
    have hbyte : ∀ b, (succeed (s.storeByte a v)).byteAt b = if b = a then v else s.byteAt b :=
      fun b => State.byteAt_storeByte s a b v
    obtain ⟨t, ht, hwrote⟩ := ih (s := succeed (s.storeByte a v)) (a := a + 1) hsize hfit'
    refine ⟨t, (execAll_cons _ hexec).trans ht, hwrote.bufBytes, hwrote.cfg, hwrote.wbit, hwrote.result, ?_,
      fun b hb => ?_, fun b hb => ?_⟩
    · rintro (_ | j) hj
      · exact (hwrote.below a (by omega)).trans ((hbyte a).trans (if_pos rfl))
      · rw [List.getElem_cons_succ, ← hwrote.written j (by simpa using hj)]
        congr 1
        omega
    · rw [hwrote.below b (by omega), hbyte, if_neg (by omega)]
    · rw [List.length_cons] at hb
      rw [hwrote.above b (by omega), hbyte, if_neg (by omega)]

/-- Settles O58: SETLEN's operand holds every length up to BUF_BYTES, and SETLEN and RCLR leave BUF alone. -/
theorem ldstreamLoadsTheStream : Obligations.LdstreamLoadsTheStream := by
  intro s bytes hsize hfit
  obtain ⟨u, hu, hwrote⟩ := execAll_writeBytes (a := 0) (bytes := bytes) hsize (by omega)
  have hlen : (BitVec.ofNat 17 bytes.length).toNat = bytes.length := by
    rw [BitVec.toNat_ofNat, Nat.mod_eq_of_lt (by omega)]
  have hfit' : accepts (.setlen (BitVec.ofNat 17 bytes.length)) u := by rwa [accepts, hlen, hwrote.bufBytes]
  have hend : execAll [.setlen (BitVec.ofNat 17 bytes.length), .rclr] u =
      .next (succeed (State.withRbit (succeed (u.withLen (BitVec.ofNat 17 bytes.length))) 0#20)) :=
    (execAll_cons _ (exec_eq_succeed hfit')).trans (execAll_cons [] (exec_eq_succeed (i := .rclr) trivial))
  refine ⟨_, (execAll_append _ hu).trans hend, ?_, hlen, rfl, hwrote.wbit, hwrote.cfg, hwrote.result,
    fun a ha => hwrote.above a (by omega)⟩
  refine List.ext_getElem ((State.stream_length _).trans hlen) fun j hj hj' => ?_
  rw [State.stream_getElem, ← hwrote.written j hj', Nat.zero_add]
  rfl

/-! ### A run of any interactions (R189) -/

/-- What a run of the interactions `xs` leaves, `rest` being those still to come. -/
structure Ran (s : State) (xs rest : List Interaction) (t : State) : Prop where
  inv : t.Inv
  pending : t.pending = rest
  bufBytes : t.bufBytes = s.bufBytes
  epoch : t.epoch = s.epoch + xs.count .reset
  responses : t.responses.length = s.responses.length + xs.countP isCommand

theorem Ran.cons {s t u : State} {x : Interaction} {xs rest rest' : List Interaction} (h : Ran s [x] rest u)
    (h' : Ran u xs rest' t) : Ran s (x :: xs) rest' t := by
  refine ⟨h'.inv, h'.pending, h'.bufBytes.trans h.bufBytes, ?_, ?_⟩
  · rw [h'.epoch, h.epoch, Nat.add_assoc, ← List.count_append, List.singleton_append]
  · rw [h'.responses, h.responses, Nat.add_assoc, ← List.countP_append, List.singleton_append]

/-- No command word touches the model's own fields. -/
theorem runWord_frame {w : Word} {s t : State} (h : runWord w s = .next t) :
    t.bufBytes = s.bufBytes ∧ t.epoch = s.epoch ∧ t.pending = s.pending := by
  cases hw : decode w with
  | error r =>
    rw [runWord_error hw, raise_eq] at h
    cases h
    exact ⟨rfl, rfl, rfl⟩
  | ok i =>
    rw [runWord_ok hw] at h
    obtain ⟨-, -, -, -, -, -, hframe⟩ := onlyNamedCommandsWriteARegister i s t h
    exact hframe

theorem step_ran {s : State} {x : Interaction} {rest : List Interaction} (hinv : s.Inv) (h : s.pending = x :: rest) :
    ∃ t, step s = .next t ∧ Ran s [x] rest t := by
  obtain ⟨t, hstep⟩ := noStepStops s hinv
  have hinv' : t.Inv := stepKeepsTheInvariant s t hinv hstep
  refine ⟨t, hstep, ?_⟩
  cases x with
  | issue w =>
    have ht : runWord w (s.withPending rest) = .next t := (step_issue h).symm.trans hstep
    obtain ⟨hbytes, hepoch, hpending⟩ := runWord_frame ht
    obtain ⟨r, hr, -⟩ := everyCommandGivesOneResponse w _ t ht
    exact ⟨hinv', hpending, hbytes, hepoch, by rw [hr, List.length_append]; rfl⟩
  | reset =>
    obtain rfl := Host.Outcome.next.inj ((step_reset h).symm.trans hstep)
    exact ⟨hinv', rfl, rfl, rfl, rfl⟩

theorem runSteps_ran {s : State} {xs : List Interaction} (hinv : s.Inv) (h : s.pending = xs) :
    ∃ t, runSteps xs.length s = .next t ∧ Ran s xs [] t := by
  induction xs generalizing s with
  | nil => exact ⟨s, rfl, hinv, h, rfl, rfl, rfl⟩
  | cons x xs ih =>
    obtain ⟨u, hu, hfirst⟩ := step_ran hinv h
    obtain ⟨t, ht, hrest⟩ := ih hfirst.inv hfirst.pending
    exact ⟨t, (runSteps_succ _ hu).trans ht, hfirst.cons hrest⟩

theorem inv_runStart {n : Nat} (epoch : Nat) (xs : List Interaction) (hlo : 1 ≤ n) (hhi : n ≤ 65536) :
    (State.runStart n epoch xs).Inv :=
  inv_withPending (inv_resetWith epoch hlo hhi) xs

/-- Settles O59: the run from the reset state, step by step. -/
theorem everyRunHasAnOutcome : Obligations.EveryRunHasAnOutcome := by
  intro n epoch xs hlo hhi
  obtain ⟨t, ht, hran⟩ := runSteps_ran (inv_runStart epoch xs hlo hhi) rfl
  exact ⟨t.outcome, runOutcome_next ht, hran.responses.trans (Nat.zero_add _), hran.bufBytes, hran.pending, hran.inv,
    State.stream_length t, State.stream_getElem t⟩

/-! ### A run inside a run (R181) -/

/-- The state with response words already returned, and with interactions to come after its own. -/
def rehost (before : List Word) (later : List Interaction) (s : State) : State :=
  { s with responses := before ++ s.responses, pending := s.pending ++ later }

section

variable (before : List Word) (later : List Interaction)

theorem complete_rehost (s : State) (e : Option CmdError) :
    (rehost before later s).complete e = rehost before later (s.complete e) :=
  congrArg (fun r => { s.complete e with responses := r, pending := s.pending ++ later }) (List.append_assoc ..)

theorem effect_rehost (i : Instr) (s : State) :
    effect i (rehost before later s) = rehost before later (effect i s) := by
  cases i <;> rfl

theorem runWord_rehost (w : Word) (s : State) :
    runWord w (rehost before later s) = mapNext (rehost before later) (runWord w s) := by
  cases hw : decode w with
  | ok i =>
    rw [runWord_ok hw, runWord_ok hw]
    exact exec_commutes (complete_rehost before later) ⟨rfl, rfl, rfl, rfl, rfl⟩
      fun _ => effect_rehost before later i s
  | error r =>
    rw [runWord_error hw, runWord_error hw, raise_eq, raise_eq, mapNext, complete_rehost]

/-- A step takes the first interaction, whatever comes after the state's own. -/
theorem step_rehost {s : State} (h : s.pending ≠ []) :
    step (rehost before later s) = mapNext (rehost before later) (step s) := by
  obtain ⟨x, rest, hpending⟩ := List.exists_cons_of_ne_nil h
  have hlater : (rehost before later s).pending = x :: (rest ++ later) := congrArg (· ++ later) hpending
  cases x with
  | issue w =>
    rw [step_issue hpending, step_issue hlater]
    exact runWord_rehost before later w (s.withPending rest)
  | reset =>
    rw [step_reset hpending, step_reset hlater]
    rfl

theorem runSteps_rehost {s t : State} {xs : List Interaction} (hinv : s.Inv) (hpending : s.pending = xs)
    (h : runSteps xs.length s = .next t) :
    runSteps xs.length (rehost before later s) = .next (rehost before later t) := by
  induction xs generalizing s with
  | nil => cases h; rfl
  | cons x xs ih =>
    obtain ⟨u, hu, hran⟩ := step_ran hinv hpending
    rw [List.length_cons, runSteps_succ _ hu] at h
    have hstep : step (rehost before later s) = .next (rehost before later u) := by
      rw [step_rehost _ _ (by simp [hpending]), hu, mapNext]
    exact (runSteps_succ _ hstep).trans (ih hran.inv hran.pending h)

end

/-- A reset starts a run of its own, but for the responses the host already has. -/
theorem takeReset_eq_rehost (s : State) :
    s.takeReset = rehost s.responses [] (State.runStart s.bufBytes (s.epoch + 1) s.pending) := by
  simp [rehost, State.takeReset, State.runStart, State.withPending, State.resetWith]

/-- Settles O60: up to the reset the run is that of `xs` with more to come, and from it on that of `ys` with the responses of
the first part before its own. -/
theorem resetStartsTheRunAgain : Obligations.ResetStartsTheRunAgain := by
  intro n epoch xs ys hlo hhi
  obtain ⟨t, ht, hran⟩ := runSteps_ran (inv_runStart epoch xs hlo hhi) rfl
  have hinv' := inv_runStart (epoch + xs.count .reset + 1) ys hlo hhi
  obtain ⟨u, hu, hran'⟩ := runSteps_ran hinv' rfl
  have hfirst : runSteps xs.length (State.runStart n epoch (xs ++ .reset :: ys)) =
      .next (rehost [] (.reset :: ys) t) := runSteps_rehost [] (.reset :: ys) (inv_runStart epoch xs hlo hhi) rfl ht
  have hreset : step (rehost [] (.reset :: ys) t) =
      .next (rehost t.responses [] (State.runStart n (epoch + xs.count .reset + 1) ys)) := by
    rw [step_reset (rest := ys) (congrArg (· ++ Interaction.reset :: ys) hran.pending), takeReset_eq_rehost]
    exact congrArg₂ (fun bytes draw => Host.Outcome.next (rehost t.responses [] (State.runStart bytes (draw + 1) ys)))
      hran.bufBytes hran.epoch
  have hlast : runSteps ys.length (rehost t.responses [] (State.runStart n (epoch + xs.count .reset + 1) ys)) =
      .next (rehost t.responses [] u) := runSteps_rehost t.responses [] hinv' rfl hu
  have hall : runSteps (xs ++ .reset :: ys).length (State.runStart n epoch (xs ++ .reset :: ys)) =
      .next (rehost t.responses [] u) := by
    rw [List.length_append, List.length_cons, runSteps_add _ hfirst, runSteps_succ _ hreset, hlast]
  refine ⟨_, _, _, runOutcome_next hall, runOutcome_next ht, runOutcome_next hu, rfl, ?_⟩
  exact congrArg (fun p => { u with responses := t.responses ++ u.responses, pending := p }) (List.append_nil _)

end Sys2Proof.Claims
end
